-- ==== Sys2Proof/Word.lean ====
section
/-! DEFINITION. The data the engine moves: the 16-bit command word and its fields, cells and blocks
(spec/00_scope.md R12, R13, R16), the four-entry key tuple (spec/10_state.md R25), and the two sets of
error names (spec/60_exceptions.md R250 to R255). -/

namespace Sys2Proof

/-- The 16-bit command word `cmd[15:0]` (R60, R61). -/
abbrev CmdWord := BitVec 16

/-- The 8-bit operand field `cmd[7:0]` (R61, R62). -/
abbrev Idx := BitVec 8

/-- A cell: an unsigned integer in `[0, 2^NBITS)` (R16). `NBITS` is a parameter of the instance, so the
bound is kept as part of a state's well-formedness and not in the type. -/
abbrev Cell := Nat

/-- An ordered sequence of cells, cell 0 first (and most significant, R13): the document's "State", the
contents of `S` and of one key entry. -/
abbrev Block := List Cell

/-- Four like things in the fixed order of the reflector key file, `0 = k0, 1 = k1, 2 = k0p, 3 = k1a`
(R25, R62): used at `Block` for a key tuple and at `Option Block` for the file `TK`. -/
structure KeyTuple (α : Type) where
  k0 : α
  k1 : α
  k0p : α
  k1a : α
deriving DecidableEq, Repr

/-- The result codes a response can carry, by name (R250). Their 4-bit numbers are `codeBits` of
Machine/Flags.lean. `shape` and `valid` are in the taxonomy and no command produces them (R252, R254). -/
inductive ErrCode where
  /-- 0, success. -/
  | ok
  /-- 1, `E_SIZE`: a needed register holds no value, or a master key is too wide (R251). -/
  | size
  /-- 2, `E_SHAPE` (R252). -/
  | shape
  /-- 3, `E_RANGE`: the `idx` operand is outside the range its command allows (R253). -/
  | range
  /-- 4, `E_VALID` (R254). -/
  | valid
  /-- 5, `E_ILLCMD`: the word is no command (R255). -/
  | illcmd
deriving DecidableEq, Repr

/-- The four errors a function of the function layer can fail with (R15, R250's "document name"). -/
inductive FnError where
  | sizeMismatch
  | shapeError
  | rangeError
  | validationError
deriving DecidableEq, Repr

end Sys2Proof
end

