-- ==== Sys2Proof/Syntax.lean ====
section
/-! DEFINITION. The complete command set (spec/30_encoding.md R66): one constructor per row of
spec/opcode_table.json, in the table's order. A format-`I` command carries its `idx` operand; the data
operand is not part of a command, it is the `din` value presented with it (R63). -/

namespace Sys2Proof

/-- A command. Operands named `r` are round-key indices, `j` reflector-key indices, `n` round counts (R62). -/
inductive Instr where
  -- control (0x0_)
  | nop
  | clrerr
  | clr
  -- data movement (0x1_)
  | lds
  | rds
  | ldrk (r : Idx)
  | rdrk (r : Idx)
  | ldtk (j : Idx)
  | rdtk (j : Idx)
  -- single layers (0x2_)
  | sub
  | subi
  | prm
  | prmi
  | mmul
  | mmuli
  | addrk (r : Idx)
  | addtk (j : Idx)
  | addd
  -- SPN cipher (0x3_)
  | ksch
  | rndf (r : Idx)
  | rndi (r : Idx)
  | enc
  | dec
  | encr (n : Idx)
  | decr (n : Idx)
  -- reflector cipher (0x4_)
  | rksch
  | rkswp
  | rndft (j : Idx)
  | rndit (j : Idx)
  | mid
  | renc
  | rdec
deriving DecidableEq, Repr

end Sys2Proof
end

