-- ==== Sys2Proof/Decode.lean ====
section
/-! DEFINITION. Decoding and encoding of the command word (spec/30_encoding.md R61, R64 to R66):
`opcode = cmd[15:8]`, `idx = cmd[7:0]`. Decoding is total on the 65536 words: a command, or a rejection by
name. -/

namespace Sys2Proof

/-- Why a word is no command; both are `E_ILLCMD` (R64 steps 1 and 2, R65, R255). -/
inductive DecodeError where
  /-- The opcode is not in the table of R66. -/
  | undefinedOpcode
  /-- A format-`N` word with a non-zero `idx`: a reserved encoding. -/
  | reservedIdx
deriving DecidableEq, Repr

/-- `cmd[15:8]` (R61). -/
def opcodeField (w : CmdWord) : BitVec 8 := w.extractLsb' 8 8

/-- `cmd[7:0]` (R61). -/
def idxField (w : CmdWord) : Idx := w.extractLsb' 0 8

/-- Format `N`: the command takes no `idx` operand and `idx` must be `0x00` (R61, R64 step 2). -/
def formatN (i : Instr) (ii : Idx) : Except DecodeError Instr :=
  if ii = 0 then .ok i else .error .reservedIdx

/-- R64 steps 1 and 2 over the table of R66. -/
def decode (w : CmdWord) : Except DecodeError Instr :=
  let ii := idxField w
  match (opcodeField w).toNat with
  | 0x00 => formatN .nop ii
  | 0x01 => formatN .clrerr ii
  | 0x02 => formatN .clr ii
  | 0x10 => formatN .lds ii
  | 0x11 => formatN .rds ii
  | 0x12 => .ok (.ldrk ii)
  | 0x13 => .ok (.rdrk ii)
  | 0x14 => .ok (.ldtk ii)
  | 0x15 => .ok (.rdtk ii)
  | 0x20 => formatN .sub ii
  | 0x21 => formatN .subi ii
  | 0x22 => formatN .prm ii
  | 0x23 => formatN .prmi ii
  | 0x24 => formatN .mmul ii
  | 0x25 => formatN .mmuli ii
  | 0x26 => .ok (.addrk ii)
  | 0x27 => .ok (.addtk ii)
  | 0x28 => formatN .addd ii
  | 0x30 => formatN .ksch ii
  | 0x31 => .ok (.rndf ii)
  | 0x32 => .ok (.rndi ii)
  | 0x33 => formatN .enc ii
  | 0x34 => formatN .dec ii
  | 0x35 => .ok (.encr ii)
  | 0x36 => .ok (.decr ii)
  | 0x40 => formatN .rksch ii
  | 0x41 => formatN .rkswp ii
  | 0x42 => .ok (.rndft ii)
  | 0x43 => .ok (.rndit ii)
  | 0x44 => formatN .mid ii
  | 0x45 => formatN .renc ii
  | 0x46 => formatN .rdec ii
  | _ => .error .undefinedOpcode

/-- The opcode column of R66. -/
def opcodeOf : Instr → BitVec 8
  | .nop => 0x00
  | .clrerr => 0x01
  | .clr => 0x02
  | .lds => 0x10
  | .rds => 0x11
  | .ldrk _ => 0x12
  | .rdrk _ => 0x13
  | .ldtk _ => 0x14
  | .rdtk _ => 0x15
  | .sub => 0x20
  | .subi => 0x21
  | .prm => 0x22
  | .prmi => 0x23
  | .mmul => 0x24
  | .mmuli => 0x25
  | .addrk _ => 0x26
  | .addtk _ => 0x27
  | .addd => 0x28
  | .ksch => 0x30
  | .rndf _ => 0x31
  | .rndi _ => 0x32
  | .enc => 0x33
  | .dec => 0x34
  | .encr _ => 0x35
  | .decr _ => 0x36
  | .rksch => 0x40
  | .rkswp => 0x41
  | .rndft _ => 0x42
  | .rndit _ => 0x43
  | .mid => 0x44
  | .renc => 0x45
  | .rdec => 0x46

/-- The operand byte of a command: its `idx`, or `0x00` in format `N` (R61). -/
def idxOf : Instr → Idx
  | .nop | .clrerr | .clr | .lds | .rds => 0
  | .ldrk r | .rdrk r => r
  | .ldtk j | .rdtk j => j
  | .sub | .subi | .prm | .prmi | .mmul | .mmuli => 0
  | .addrk r => r
  | .addtk j => j
  | .addd | .ksch => 0
  | .rndf r | .rndi r => r
  | .enc | .dec => 0
  | .encr n | .decr n => n
  | .rksch | .rkswp => 0
  | .rndft j | .rndit j => j
  | .mid | .renc | .rdec => 0

/-- The "fmt" column of R66: does the command have format `I`? -/
def takesIdx : Instr → Bool
  | .nop | .clrerr | .clr | .lds | .rds => false
  | .ldrk _ | .rdrk _ | .ldtk _ | .rdtk _ => true
  | .sub | .subi | .prm | .prmi | .mmul | .mmuli => false
  | .addrk _ | .addtk _ => true
  | .addd | .ksch => false
  | .rndf _ | .rndi _ => true
  | .enc | .dec => false
  | .encr _ | .decr _ => true
  | .rksch | .rkswp => false
  | .rndft _ | .rndit _ => true
  | .mid | .renc | .rdec => false

/-- The mask of a command's table row: `0xFFFF` for format `N`, `0xFF00` for format `I` (R61). -/
def rowMask (i : Instr) : CmdWord := if takesIdx i then 0xFF00 else 0xFFFF

/-- The `match` value of a command's table row: its opcode over a zero byte (R61, R66). -/
def rowMatch (i : Instr) : CmdWord := opcodeOf i ++ (0 : BitVec 8)

/-- The word of a command (R61, R66): opcode over operand byte. -/
def encode (i : Instr) : CmdWord := opcodeOf i ++ idxOf i

/-- The command the decoder reads from the low `nbits` bits of `w`, numbered as spec/opcode_table.json
numbers them; there is one command length, 16 bits (R60), and bits above `nbits` are 0. -/
def decodeTableWord (nbits w : Nat) : Option Instr :=
  if nbits ≤ 16 then (decode (BitVec.ofNat 16 (w % 2 ^ nbits))).toOption else none

end Sys2Proof
end

