-- ==== Sys2Proof/Config.lean ====
section
/-! DEFINITION. What fixes one engine instance (spec/00_scope.md R7, R8): the configuration `CFG`, its
derived sizes, and two configurations of spec/95_test_vectors.md section 2: `TA`, which the model's reset state
uses, and `TB`. Every other definition takes the configuration as an argument, so that what is proved of
it holds of every instance. -/

namespace Sys2Proof

/-- `ROUND_ORDER`: the order of the first two steps of a forward round (R8, R130). -/
inductive RoundOrder where
  /-- substitute, add, permute. -/
  | sap
  /-- add, substitute, permute. -/
  | asp
deriving DecidableEq, Repr

/-- `CFG` as R8 lists it. `SBOX_INV` is derived from `SBOX` (D14) and is `sboxInv` of
Machine/FieldOps.lean; `m` and `mInv` are lists of rows, `M[j][i]` being row `j`, column `i`. -/
structure Cfg where
  /-- `NCELLS`, the number of cells of a block. -/
  ncells : Nat
  /-- `NBITS`, the bits of a cell. -/
  nbits : Nat
  /-- `NROUNDS`, the round count and the number of entries of `RK`. -/
  nrounds : Nat
  /-- `SBOX`. -/
  sbox : List Cell
  /-- `PBOX`. -/
  pbox : List Nat
  /-- `PBOX_INV`, stored. -/
  pboxInv : List Nat
  /-- `M`, the diffusion matrix. -/
  m : List (List Cell)
  /-- `M_INV`, stored. -/
  mInv : List (List Cell)
  /-- `POLY`, with bit `NBITS` set. -/
  poly : Nat
  /-- `ROUND_ORDER`. -/
  roundOrder : RoundOrder
  /-- `DIFFUSION_IN_ROUND`. -/
  diffusionInRound : Bool
  /-- `ALPHA`. -/
  alpha : Nat
  /-- `RHALF`, the reflector's half-round count. -/
  rhalf : Nat
deriving DecidableEq, Repr

/-- `W = NCELLS * NBITS`, the block width in bits (R8). -/
def Cfg.W (c : Cfg) : Nat := c.ncells * c.nbits

/-- `KW = NROUNDS * W`, the SPN master key width (R8). -/
def Cfg.KW (c : Cfg) : Nat := c.nrounds * c.W

/-- `TKW = 2 * W`, the reflector master key width (R8). -/
def Cfg.TKW (c : Cfg) : Nat := 2 * c.W

/-- `DW = max(KW, TKW)`, the width of the data-in bus (R8, R44). -/
def Cfg.DW (c : Cfg) : Nat := max c.KW c.TKW

/-- The spec's test configuration `TA` (spec/95_test_vectors.md section 2). The instance of
`State.reset` (DESIGN CHOICE, unsafe: notes/assumptions/2.md). -/
def cfgTA : Cfg where
  ncells := 4
  nbits := 4
  nrounds := 3
  sbox := [0xC, 0xA, 0xD, 0x3, 0xE, 0xB, 0xF, 0x7, 0x8, 0x9, 0x1, 0x5, 0x0, 0x2, 0x4, 0x6]
  pbox := [1, 2, 3, 0]
  pboxInv := [3, 0, 1, 2]
  m := [[0, 1, 1, 1], [1, 0, 1, 1], [1, 1, 0, 1], [1, 1, 1, 0]]
  mInv := [[0, 1, 1, 1], [1, 0, 1, 1], [1, 1, 0, 1], [1, 1, 1, 0]]
  poly := 0x13
  roundOrder := .sap
  diffusionInRound := true
  alpha := 0x243F
  rhalf := 3

/-- The spec's test configuration `TB` (spec/95_test_vectors.md section 2): order `ASP`, an S-box that is not
involutive, a matrix with non-trivial field products. R178's negative example is stated on it. -/
def cfgTB : Cfg where
  ncells := 2
  nbits := 4
  nrounds := 2
  sbox := [0xC, 0x5, 0x6, 0xB, 0x9, 0x0, 0xA, 0xD, 0x3, 0xE, 0xF, 0x8, 0x4, 0x7, 0x1, 0x2]
  pbox := [1, 0]
  pboxInv := [1, 0]
  m := [[2, 3], [3, 2]]
  mInv := [[2, 3], [3, 2]]
  poly := 0x13
  roundOrder := .asp
  diffusionInRound := true
  alpha := 0xA5
  rhalf := 2

end Sys2Proof
end

