-- ==== Sys2Proof/Machine/CellCodec.lean ====
section
/-! DEFINITION. The cell codec of the function layer (spec/40_cellcodec.md R80 to R86 and
spec/00_scope.md R12): slices, the conversion between integers and cell sequences, and the word rotation.
The host-side helpers of that file are in Machine/HostSide.lean. -/

namespace Sys2Proof.Machine

/-- `v[hi:lo]`, the unsigned integer made of bits `hi` down to `lo`, `hi >= lo` (R12). -/
def slice (v hi lo : Nat) : Nat := (v >>> lo) % 2 ^ (hi - lo + 1)

/-- `intToCells(value, ncells, nbits)` (R80): most significant cell first; bits above the
`ncells * nbits` lowest are discarded. -/
def intToCells (value ncells nbits : Nat) : Block :=
  (List.range ncells).map fun i => (value >>> (nbits * (ncells - 1 - i))) % 2 ^ nbits

/-- `cellsToInt(state, nbits)` (R81), the sum of `state[i] * 2^(nbits * (n - 1 - i))` by Horner's rule.
Its cells are in `[0, 2^nbits)` (a precondition: 93_implementation_defined.md U15). -/
def cellsToInt (x : Block) (nbits : Nat) : Nat := x.foldl (fun v cell => v * 2 ^ nbits + cell) 0

/-- `rotateLeft(value, width, amount)` (R86, D32): the low `width` bits rotated left by `amount` modulo
`width`, the remainder taken in `[0, width)` also for a negative `amount`. `width >= 1` (a precondition: U16). -/
def rotateLeft (value width : Nat) (amount : Int) : Nat :=
  let v := value % 2 ^ width
  let a := (amount % (width : Int)).toNat
  if a = 0 then v else ((v <<< a) % 2 ^ width) ^^^ (v >>> (width - a))

end Sys2Proof.Machine
end

