-- ==== Sys2Proof/Machine/FieldOps.lean ====
section
/-! DEFINITION. The field and the four operations of the function layer (spec/41_field_ops.md R100 to R108).
Each operation stands twice: as the datapath computes it on operands of the instance's shape (where it cannot
fail, R41), and as the function layer states it, with the named error it raises on other operands. -/

namespace Sys2Proof.Machine

/-- Field addition, bitwise XOR (R100). -/
def gfadd (a b : Cell) : Cell := a ^^^ b

/-- One doubling of R101's procedure: shift left by one, and reduce by `POLY` when bit `NBITS` is set. -/
def gfdouble (nbits poly t : Nat) : Nat :=
  if (t <<< 1).testBit nbits then (t <<< 1) ^^^ poly else t <<< 1

/-- One pass of R101's loop over `(r, t)`, for bit `k` of `b`. -/
def gfmulPass (nbits poly b : Nat) (rt : Nat × Nat) (k : Nat) : Nat × Nat :=
  (if b.testBit k then rt.1 ^^^ rt.2 else rt.1, gfdouble nbits poly rt.2)

/-- Field multiplication `gfmul(a, b)`, R101's exact procedure. -/
def gfmul (c : Cfg) (a b : Cell) : Cell :=
  ((List.range c.nbits).foldl (gfmulPass c.nbits c.poly b) (0, a)).1

/-- `substitute(state, sbox)` (R103): `result[i] = sbox[state[i]]`. -/
def substitute (x : Block) (table : List Cell) : Block := x.map fun v => table.getD v 0

/-- `permute(state, positions)` (R104): `result[i] = state[positions[i]]`, a gather. -/
def permute (x : Block) (positions : List Nat) : Block := positions.map fun p => x.getD p 0

/-- `add(lhs, rhs)` (R105): cell-wise XOR. -/
def add (lhs rhs : Block) : Block := List.zipWith gfadd lhs rhs

/-- Output cell `j` of R106: the field sum over `i` of `matrix[j][i] * state[i]`. -/
def rowProduct (c : Cfg) (row : List Cell) (x : Block) : Cell :=
  (List.zipWith (gfmul c) row x).foldl gfadd 0

/-- `matrixMultiply(state, matrix)` (R106), `matrix[j]` being row `j`. -/
def matrixMultiply (c : Cfg) (x : Block) (matrix : List (List Cell)) : Block :=
  matrix.map fun row => rowProduct c row x

/-- `SBOX_INV`, derived from `SBOX` (R8, D14): entry `v` is the `x` with `SBOX[x] = v`. -/
def sboxInv (c : Cfg) : List Cell := (List.range (2 ^ c.nbits)).map fun v => c.sbox.idxOf v

/-- `a * b = I` over the field: for all `j, i`, the field sum over `t` of `a[j][t] * b[t][i]` is 1 when `j = i`
and 0 otherwise (the form of V5 of R9, and of P2 of R10). -/
def productIsIdentity (c : Cfg) (a b : List (List Cell)) : Bool :=
  (List.range c.ncells).all fun j => (List.range c.ncells).all fun i =>
    rowProduct c (a.getD j []) (b.map fun row => row.getD i 0) == if j = i then 1 else 0

/-- Property P1: `SBOX` is involutive, `SBOX[SBOX[x]] = x` for every cell value `x` (R10). -/
def involutiveSbox (c : Cfg) : Bool :=
  (List.range (2 ^ c.nbits)).all fun v => c.sbox.getD (c.sbox.getD v 0) 0 == v

/-- Property P2: `M` is self-inverse over the field (R10). -/
def selfInverseMatrix (c : Cfg) : Bool := productIsIdentity c c.m c.m

/-- `substitute` as the function layer states it: `ValidationError` on a cell with no entry (R103). -/
def substituteChecked (x : Block) (table : List Cell) : Except FnError Block :=
  if x.all (fun v => decide (v < table.length)) then .ok (substitute x table)
  else .error .validationError

/-- `permute` as the function layer states it: `RangeError` on an out-of-range position (R104). -/
def permuteChecked (x : Block) (positions : List Nat) : Except FnError Block :=
  if positions.all (fun p => decide (p < x.length)) then .ok (permute x positions)
  else .error .rangeError

/-- `add` as the function layer states it: `ShapeError` on different lengths (R105). -/
def addChecked (lhs rhs : Block) : Except FnError Block :=
  if lhs.length = rhs.length then .ok (add lhs rhs) else .error .shapeError

end Sys2Proof.Machine
end

