-- ==== Sys2Proof/Machine/ConfigCheck.lean ====
section
/-! DEFINITION. Which configurations are engines (spec/00_scope.md R9, V1 to V7) and the checked constructor
`validateConfig` (spec/60_exceptions.md R254, spec/92_eei_decisions.md D13). -/

namespace Sys2Proof.Machine

/-- A table is a total permutation of `[0, n)`: `n` entries, each below `n`, every value met (V1, V2, V3). -/
def isPermutation (n : Nat) (t : List Nat) : Bool :=
  t.length == n && t.all (fun v => decide (v < n)) && (List.range n).all (fun v => t.contains v)

/-- V3: `PBOX_INV[PBOX[i]] = i` for every `i` in `[0, NCELLS)`. -/
def pboxInverseOk (c : Cfg) : Bool :=
  (List.range c.ncells).all fun i => c.pboxInv.getD (c.pbox.getD i 0) 0 == i

/-- V4: `NCELLS` rows of `NCELLS` entries, each in `[0, 2^NBITS)`. -/
def matrixFits (c : Cfg) (m : List (List Cell)) : Bool :=
  m.length == c.ncells &&
    m.all fun row => row.length == c.ncells && row.all (fun v => decide (v < 2 ^ c.nbits))

/-- The remainder of the polynomial `a`, of degree at most `n`, by the polynomial `d`, over GF(2): for each shift
from `n` down to 0, subtract the shifted `d` when its leading bit is set in what is left. -/
def polyRem (n a d : Nat) : Nat :=
  (List.range (n + 1)).reverse.foldl
    (fun r k => if r.testBit (d.log2 + k) then r ^^^ (d <<< k) else r) a

/-- V6: `POLY` has degree `NBITS` and no divisor over GF(2) of a degree from 1 to `NBITS - 1`. -/
def polyIrreducible (c : Cfg) : Bool :=
  c.poly.testBit c.nbits && decide (c.poly < 2 ^ (c.nbits + 1)) &&
    (List.range (2 ^ c.nbits)).all fun d => decide (d < 2) || polyRem c.nbits c.poly d != 0

/-- V7: the bounds on the sizes and on `ALPHA`. -/
def sizesOk (c : Cfg) : Bool :=
  decide (1 ≤ c.ncells) && decide (1 ≤ c.nbits) && decide (1 ≤ c.nrounds) &&
    decide (c.nrounds ≤ 255) && decide (c.rhalf ≤ 255) && decide (c.alpha < 2 ^ c.W)

/-- Does a permutation table hold an out-of-range index (R9's `RangeError`)? -/
def permutationEntryOutOfRange (c : Cfg) : Bool :=
  (c.pbox ++ c.pboxInv).any fun p => decide (c.ncells ≤ p)

/-- V1 to V7 together. -/
def tablesOk (c : Cfg) : Bool :=
  sizesOk c && isPermutation (2 ^ c.nbits) c.sbox && isPermutation c.ncells c.pbox &&
    isPermutation c.ncells c.pboxInv && pboxInverseOk c && matrixFits c c.m && matrixFits c c.mInv &&
    polyIrreducible c && productIsIdentity c c.mInv c.m

/-- `validateConfig(CFG)` (R254): `OK` for a valid configuration, `E_RANGE` when a permutation table holds an
out-of-range index, `E_VALID` otherwise. Two points the spec leaves open, each a DESIGN CHOICE, unsafe for a claim
about which error (notes/assumptions/6.md): an invalid configuration that earns both gets `E_RANGE`, and a `PBOX_INV`
that is a permutation but not the inverse of `PBOX` (V3), for which the spec names no error, gets `E_VALID`. -/
def validateConfig (c : Cfg) : ErrCode :=
  if permutationEntryOutOfRange c then .range else if tablesOk c then .ok else .valid

/-- `TA` is a valid configuration (spec/95_test_vectors.md section 2). -/
theorem cfgTA_valid : validateConfig cfgTA = .ok := by decide +kernel

end Sys2Proof.Machine
end

