-- ==== Sys2Proof/Machine/State.lean ====
section
/-! DEFINITION. The state of one engine instance (spec/10_state.md R20 to R32), the request and response ports
(spec/30_encoding.md R60), the two ways a step can stop, and the state after reset
(spec/70_reset_and_hazards.md R280). -/

namespace Sys2Proof.Machine

/-- An engine instance: a configuration with the check that it is valid, since "an invalid configuration is
not an instance of this hardware" (R9, D13, 93_implementation_defined.md U1). -/
structure Engine where
  cfg : Cfg
  valid : validateConfig cfg = .ok
deriving DecidableEq, Repr

/-- A request `(cmd, din)` (R60). -/
structure Request where
  cmd : CmdWord
  din : Nat
deriving DecidableEq, Repr

/-- A response `(code, dout)` (R60). -/
structure Response where
  code : ErrCode
  dout : Nat
deriving DecidableEq, Repr

/-- What the world outside can do to the engine, in the order it does it: present a request on the command
port (R283), or assert the reset input (R280). -/
inductive HostEvent where
  | command (q : Request)
  | reset
deriving DecidableEq, Repr

/-- The machine. `S`, `RK`, `TK` and `ERR` are the whole architectural state (R20); a register with its valid
bit is one `Option`: `none` when the valid bit is 0, so that no statement can rest on cells without a value
(R22, U9; notes/assumptions/7.md). `engine` is the parameter `CFG`, which no step changes (R7;
notes/assumptions/1.md). `script`, `din` and `resp` are the model's own view of the ports and no state of the
engine (R33; DESIGN CHOICE: notes/assumptions/4.md). -/
structure State where
  /-- `CFG` (R7, R8): the read-only tables of the instance. -/
  engine : Engine
  /-- `S` with `SV` (R21, R22). -/
  S : Option Block
  /-- `RK[0 .. NROUNDS-1]` with `RKV[]` (R23, R24). -/
  RK : List (Option Block)
  /-- `TK[0 .. 3]` with `TKV[]` (R25, R26). -/
  TK : KeyTuple (Option Block)
  /-- `ERR`, the sticky first-error register (R28). -/
  ERR : ErrCode
  /-- The port: what the host is going to present, the next event first. -/
  script : List HostEvent
  /-- The port: the data-in value sampled with the command being executed (R284). -/
  din : Nat
  /-- The port: the response of the latest step, `none` when it had none (R33, R45). -/
  resp : Option Response
deriving DecidableEq, Repr

/-- The configuration of a state's engine. -/
abbrev State.cfg (s : State) : Cfg := s.engine.cfg

/-- Why the machine stops with a fault. No command can make it stop (R261): commands that fail raise an error
code and the engine goes on. -/
inductive Fault where
  /-- Raised by `step` alone, when the script's next request carries a `din` value that does not fit the
  `DW`-bit bus and so is no request of this instance (R44, R60; notes/assumptions/5.md). Safe: the model stops where the hardware
  cannot be. -/
  | dinOffBus
deriving DecidableEq, Repr

/-- Why the machine has no answer. -/
inductive Refusal where
  /-- Raised by an arm of `exec` whose command has no meaning yet; no arm does. Safe. -/
  | notModelled (mnemonic : String)
deriving DecidableEq, Repr

/-- A step's outcome on this machine. -/
abbrev Outcome := Host.Outcome State Fault Refusal

/-- The reset state of R32 on a given engine: every valid bit 0, `ERR = 0`, no cell with a value; the ports are
idle (`din` at 0 is a DESIGN CHOICE: notes/assumptions/4.md), and the host's script is empty. -/
def State.resetOf (e : Engine) : State where
  engine := e
  S := none
  RK := List.replicate e.cfg.nrounds none
  TK := { k0 := none, k1 := none, k0p := none, k1a := none }
  ERR := .ok
  script := []
  din := 0
  resp := none

/-- The instance with the spec's main test configuration `TA`. -/
def engineTA : Engine := ⟨cfgTA, cfgTA_valid⟩

/-- The machine right after reset (R32, R280), on the instance `TA` (DESIGN CHOICE, unsafe:
notes/assumptions/2.md; `State.resetOf` is the reset state of every other instance). -/
def State.reset : State := State.resetOf engineTA

end Sys2Proof.Machine
end

