-- ==== Sys2Proof/Machine/Flags.lean ====
section
/-! DEFINITION. The engine's flags (spec/10_state.md R22, R24, R26, R28, R29): the valid bits, the sticky error
register's update, the code numbers, and the status pins. There are no condition codes (R29). -/

namespace Sys2Proof.Machine

/-- The 4-bit number of a result code (R250). -/
def codeBits : ErrCode → BitVec 4
  | .ok => 0
  | .size => 1
  | .shape => 2
  | .range => 3
  | .valid => 4
  | .illcmd => 5

/-- The engine's code for a function-layer error (R250's "document name"). -/
def codeOf : FnError → ErrCode
  | .sizeMismatch => .size
  | .shapeError => .shape
  | .rangeError => .range
  | .validationError => .valid

/-- Sticky first error: `ERR` takes the code of a response only while it is 0 (R28, R257). -/
def stickyErr (old code : ErrCode) : ErrCode := if old = .ok then code else old

/-- The contents of `RK[r]`, `none` when `RKV[r] = 0` (R23, R24). -/
def State.rkVal (s : State) (r : Nat) : Option Block := s.RK.getD r none

/-- Entry `j` of a key tuple, in the order `k0, k1, k0p, k1a` (R25); there is none from 4 on. -/
def tupleEntry {α : Type} (t : KeyTuple (Option α)) (j : Nat) : Option α :=
  match j with
  | 0 => t.k0
  | 1 => t.k1
  | 2 => t.k0p
  | 3 => t.k1a
  | _ => none

/-- The contents of `TK[j]`, `none` when `TKV[j] = 0` (R25, R26). -/
def State.tkVal (s : State) (j : Nat) : Option Block := tupleEntry s.TK j

/-- `SV` (R22). -/
def State.SV (s : State) : Bool := s.S.isSome

/-- `RKV[r]` (R24). -/
def State.RKV (s : State) (r : Nat) : Bool := (s.rkVal r).isSome

/-- `TKV[j]` (R26). -/
def State.TKV (s : State) (j : Nat) : Bool := (s.tkVal j).isSome

/-- The status pins: `err[3:0]`, `sv`, `rkv[NROUNDS-1:0]` and `tkv[3:0]`, the last two as lists indexed
from 0 (R29). -/
structure Pins where
  err : BitVec 4
  sv : Bool
  rkv : List Bool
  tkv : List Bool
deriving DecidableEq, Repr

/-- What the engine drives on the status pins, continuously and without any command (R29). -/
def State.pins (s : State) : Pins where
  err := codeBits s.ERR
  sv := s.SV
  rkv := (List.range s.cfg.nrounds).map s.RKV
  tkv := (List.range 4).map s.TKV

end Sys2Proof.Machine
end

