-- ==== Sys2Proof/Machine/Operands.lean ====
section
/-! DEFINITION. The operand forms of a command (spec/30_encoding.md R62 to R64): the three ranges of the `idx`
field, and the three data-operand classes `W`, `KW` and `TKW` (spec/20_memory.md R44). A form that does not fit
is an error of the command (R253, R251), in the priority of R258 when the forms are read in R64's order. -/

namespace Sys2Proof.Machine

/-- Raise `e` unless the condition holds (R14's `if … : raise E`). -/
def require (holds : Bool) (e : ErrCode) : Except ErrCode Unit := if holds then .ok () else .error e

/-- `r` as a round-key index: `r < NROUNDS`, else `E_RANGE` (R62). -/
def rkIndex (s : State) (r : Idx) : Except ErrCode Unit :=
  require (decide (r.toNat < s.cfg.nrounds)) .range

/-- `j` as a reflector-key index: `j < 4`, else `E_RANGE` (R62). -/
def tkIndex (j : Idx) : Except ErrCode Unit := require (decide (j.toNat < 4)) .range

/-- `n` as a round count: `n <= NROUNDS`, else `E_RANGE` (R62). -/
def roundCount (s : State) (n : Idx) : Except ErrCode Unit :=
  require (decide (n.toNat ≤ s.cfg.nrounds)) .range

/-- Data class `W`: the block on `din[W-1:0]`; the bits above are ignored (R44, R63). -/
def dinBlock (s : State) : Block :=
  intToCells (slice s.din (s.cfg.W - 1) 0) s.cfg.ncells s.cfg.nbits

/-- A master key of `width` bits: `din[width-1:0]`, and `din >> width` must be zero, else `E_SIZE` (R44, R63). -/
def dinKey (s : State) (width : Nat) : Except ErrCode Nat := do
  require (decide (s.din >>> width = 0)) .size
  return slice s.din (width - 1) 0

/-- Does a request fit the instance: is its `din` a `DW`-bit value (R44, R60)? -/
def Request.onBus (c : Cfg) (q : Request) : Bool := decide (q.din < 2 ^ c.DW)

end Sys2Proof.Machine
end

