-- ==== Sys2Proof/Machine/Ops.lean ====
section
/-! DEFINITION. The named operations a command is made of: reading and writing `S`, `RK` and `TK` with their
valid bits (spec/10_state.md R21 to R26), raising an error (spec/60_exceptions.md R256, R257) and its
counterpart `CLRERR` (R260), answering a request (spec/30_encoding.md R60, spec/20_memory.md R45), and what the
ports do around a command. -/

namespace Sys2Proof.Machine

/-- What a command computes before anything is written: an error code, or the new registers and the data-out
value. Because the writes of a failing command are never part of its result, it is atomic (R14, R48, R256). -/
abbrev Result := Except ErrCode (State × Nat)

/-- TAKING AN ERROR (R256, R257): no register or valid bit changes, the response is `(E, 0)`, and `ERR` records
the first error. -/
def State.raise (s : State) (e : ErrCode) : State :=
  { s with ERR := stickyErr s.ERR e, resp := some { code := e, dout := 0 } }

/-- The only "return" from an error: `ERR <- 0` (R241, R260). -/
def State.clearErr (s : State) : State := { s with ERR := .ok }

/-- A successful response `(0, dout)` (R45, R60). -/
def State.answer (s : State) (dout : Nat) : State := { s with resp := some { code := .ok, dout := dout } }

/-- Complete a command on `s`: raise its error on `s` itself, or take its registers and answer (R48, R256). -/
def State.commit (s : State) (r : Result) : Outcome :=
  match r with
  | .error e => .next (s.raise e)
  | .ok (t, dout) => .next (t.answer dout)

/-- Read `S`; `E_SIZE` while `SV = 0` (R22). -/
def State.readS (s : State) : Except ErrCode Block :=
  match s.S with
  | some x => .ok x
  | none => .error .size

/-- Read `RK[r]`; `E_SIZE` while `RKV[r] = 0` (R24). -/
def State.readRk (s : State) (r : Nat) : Except ErrCode Block :=
  match s.rkVal r with
  | some k => .ok k
  | none => .error .size

/-- Read `TK[j]`; `E_SIZE` while `TKV[j] = 0` (R26). -/
def State.readTk (s : State) (j : Nat) : Except ErrCode Block :=
  match s.tkVal j with
  | some k => .ok k
  | none => .error .size

/-- The contents of a list of registers when every one of them has a value. -/
def allValid : List (Option Block) → Option (List Block)
  | [] => some []
  | none :: _ => none
  | some k :: rest => (allValid rest).map (k :: ·)

/-- Read `RK[0 .. n-1]`; `E_SIZE` while one of them holds no value (R143, R145). -/
def State.readRks (s : State) (n : Nat) : Except ErrCode (List Block) :=
  match allValid ((List.range n).map s.rkVal) with
  | some ks => .ok ks
  | none => .error .size

/-- Read the whole tuple `TK[0 .. 3]`; `E_SIZE` while one of them holds no value (R181, R185). -/
def State.readTuple (s : State) : Except ErrCode (KeyTuple Block) :=
  match s.TK with
  | { k0 := some a, k1 := some b, k0p := some c, k1a := some d } =>
    .ok { k0 := a, k1 := b, k0p := c, k1a := d }
  | _ => .error .size

/-- Write all cells of `S` and set `SV` (R21, R22). -/
def State.writeS (s : State) (x : Block) : State := { s with S := some x }

/-- Write `RK[r]` and set `RKV[r]` (R24, R223). -/
def State.writeRk (s : State) (r : Nat) (k : Block) : State := { s with RK := s.RK.set r (some k) }

/-- Write every entry of `RK` and set every `RKV[r]` (R24, R140). -/
def State.writeRks (s : State) (ks : List Block) : State := { s with RK := ks.map some }

/-- Write `TK[j]` and set `TKV[j]` (R26, R225). -/
def State.writeTk (s : State) (j : Nat) (k : Block) : State :=
  match j with
  | 0 => { s with TK := { s.TK with k0 := some k } }
  | 1 => { s with TK := { s.TK with k1 := some k } }
  | 2 => { s with TK := { s.TK with k0p := some k } }
  | 3 => { s with TK := { s.TK with k1a := some k } }
  | _ => s

/-- Write all four entries of `TK` and set every `TKV[j]` (R26, R180). -/
def State.writeTuple (s : State) (t : KeyTuple Block) : State :=
  { s with TK := { k0 := some t.k0, k1 := some t.k1, k0p := some t.k0p, k1a := some t.k1a } }

/-- Clear every valid bit, leaving no register with a value (R242). -/
def State.discard (s : State) : State :=
  { s with
    S := none
    RK := List.replicate s.cfg.nrounds none
    TK := { k0 := none, k1 := none, k0p := none, k1a := none } }

/-- A command that transforms `S` in place and needs nothing else: the template of R109. -/
def State.transform (s : State) (f : Block → Block) : Result := do
  let x ← s.readS
  return (s.writeS (f x), 0)

/-- A command that transforms `S` with one round key `RK[r]` (R109, R139). -/
def State.transformRk (s : State) (r : Idx) (f : Block → Block → Block) : Result := do
  rkIndex s r
  let x ← s.readS
  let k ← s.readRk r.toNat
  return (s.writeS (f x k), 0)

/-- A command that transforms `S` with one reflector sub-key `TK[j]` (R109). -/
def State.transformTk (s : State) (j : Idx) (f : Block → Block → Block) : Result := do
  tkIndex j
  let x ← s.readS
  let k ← s.readTk j.toNat
  return (s.writeS (f x k), 0)

/-- A command that transforms `S` with the first `n` round keys (R139). -/
def State.transformRks (s : State) (n : Nat) (f : Block → List Block → Block) : Result := do
  let x ← s.readS
  let ks ← s.readRks n
  return (s.writeS (f x ks), 0)

/-- A command that transforms `S` with the whole key tuple (R185, R186). -/
def State.transformTuple (s : State) (f : Block → KeyTuple Block → Block) : Result := do
  let x ← s.readS
  let t ← s.readTuple
  return (s.writeS (f x t), 0)

/-- Take the next request off the host's script: its `din` is sampled with the command word (R284). -/
def State.accept (s : State) (q : Request) (rest : List HostEvent) : State :=
  { s with script := rest, din := q.din }

/-- The reset input (R280): the reset state on the same engine, no response; the host goes on with its script. It
lands between commands (DEDUCED, safe: notes/assumptions/8.md). -/
def State.takeReset (s : State) (rest : List HostEvent) : State :=
  { State.resetOf s.engine with script := rest }

/-- The host presents nothing: the engine keeps its registers (R265) and gives no response (DESIGN CHOICE, safe:
notes/assumptions/3.md). -/
def State.idle (s : State) : State := { s with resp := none }

end Sys2Proof.Machine
end

