-- ==== Sys2Proof/Machine/Control.lean ====
section
/-! DEFINITION. The control commands (spec/46_control.md R240 to R242). -/

namespace Sys2Proof.Machine

/-- `NOP` (R240): nothing; changes no state, not even `ERR`. -/
def execNop (s : State) : Outcome := s.commit (.ok (s, 0))

/-- `CLRERR` (R241): `ERR <- 0`. -/
def execClrerr (s : State) : Outcome := s.commit (.ok (s.clearErr, 0))

/-- `CLR` (R242): every valid bit cleared; `ERR` is not changed. -/
def execClr (s : State) : Outcome := s.commit (.ok (s.discard, 0))

end Sys2Proof.Machine
end

