-- ==== Sys2Proof/Machine/Layers.lean ====
section
/-! DEFINITION. The single-layer commands (spec/41_field_ops.md R109 to R118). -/

namespace Sys2Proof.Machine

/-- `SUB` (R110): `S <- substitute(S, SBOX)`. -/
def execSub (s : State) : Outcome := s.commit (s.transform fun x => substitute x s.cfg.sbox)

/-- `SUBI` (R111): `S <- substitute(S, SBOX_INV)`. -/
def execSubi (s : State) : Outcome := s.commit (s.transform fun x => substitute x (sboxInv s.cfg))

/-- `PRM` (R112): `S <- permute(S, PBOX)`. -/
def execPrm (s : State) : Outcome := s.commit (s.transform fun x => permute x s.cfg.pbox)

/-- `PRMI` (R113): `S <- permute(S, PBOX_INV)`. -/
def execPrmi (s : State) : Outcome := s.commit (s.transform fun x => permute x s.cfg.pboxInv)

/-- `MMUL` (R114): `S <- matrixMultiply(S, M)`, whatever `DIFFUSION_IN_ROUND` is. -/
def execMmul (s : State) : Outcome :=
  s.commit (s.transform fun x => matrixMultiply s.cfg x s.cfg.m)

/-- `MMULI` (R115): `S <- matrixMultiply(S, M_INV)`. -/
def execMmuli (s : State) : Outcome :=
  s.commit (s.transform fun x => matrixMultiply s.cfg x s.cfg.mInv)

/-- `ADDRK r` (R116): `S <- add(S, RK[r])`. -/
def execAddrk (r : Idx) (s : State) : Outcome := s.commit (s.transformRk r add)

/-- `ADDTK j` (R117): `S <- add(S, TK[j])`. -/
def execAddtk (j : Idx) (s : State) : Outcome := s.commit (s.transformTk j add)

/-- `ADDD` (R118): `S <- add(S, intToCells(din[W-1:0]))`. -/
def execAddd (s : State) : Outcome := s.commit (s.transform fun x => add x (dinBlock s))

end Sys2Proof.Machine
end

