-- ==== Sys2Proof/Machine/Movement.lean ====
section
/-! DEFINITION. The data movement commands (spec/45_data_movement.md R220 to R226). -/

namespace Sys2Proof.Machine

/-- `LDS` (R221). -/
def execLds (s : State) : Outcome := s.commit (.ok (s.writeS (dinBlock s), 0))

/-- `RDS` (R222). -/
def execRds (s : State) : Outcome := s.commit do
  let x ← s.readS
  return (s, cellsToInt x s.cfg.nbits)

/-- `LDRK r` (R223). -/
def execLdrk (r : Idx) (s : State) : Outcome := s.commit do
  rkIndex s r
  return (s.writeRk r.toNat (dinBlock s), 0)

/-- `RDRK r` (R224). -/
def execRdrk (r : Idx) (s : State) : Outcome := s.commit do
  rkIndex s r
  let k ← s.readRk r.toNat
  return (s, cellsToInt k s.cfg.nbits)

/-- `LDTK j` (R225). -/
def execLdtk (j : Idx) (s : State) : Outcome := s.commit do
  tkIndex j
  return (s.writeTk j.toNat (dinBlock s), 0)

/-- `RDTK j` (R226). -/
def execRdtk (j : Idx) (s : State) : Outcome := s.commit do
  tkIndex j
  let k ← s.readTk j.toNat
  return (s, cellsToInt k s.cfg.nbits)

end Sys2Proof.Machine
end

