-- ==== Sys2Proof/Machine/SpnCipher.lean ====
section
/-! DEFINITION. The SPN cipher of the function layer (spec/42_spn_cipher.md R130 to R138): the rounds, the key
schedule, whole and partial encryption and decryption. -/

namespace Sys2Proof.Machine

/-- `forwardRound(x, k)` (R130). -/
def forwardRound (c : Cfg) (x k : Block) : Block :=
  let y := match c.roundOrder with
    | .sap => add (substitute x c.sbox) k
    | .asp => substitute (add x k) c.sbox
  let y := permute y c.pbox
  if c.diffusionInRound then matrixMultiply c y c.m else y

/-- `inverseRound(y, k)` (R131). -/
def inverseRound (c : Cfg) (y k : Block) : Block :=
  let x := if c.diffusionInRound then matrixMultiply c y c.mInv else y
  let x := permute x c.pboxInv
  match c.roundOrder with
  | .sap => substitute (add x k) (sboxInv c)
  | .asp => add (substitute x (sboxInv c)) k

/-- `keySchedule(masterKey)` (R133): round 0 takes the most significant `W`-bit chunk (D16). -/
def keySchedule (c : Cfg) (masterKey : Nat) : List Block :=
  (List.range c.nrounds).map fun r =>
    intToCells (slice masterKey (c.KW - 1 - r * c.W) (c.KW - (r + 1) * c.W)) c.ncells c.nbits

/-- `encryptRounds(p, roundKeys, n)` (R137): forward rounds with keys `0 .. n-1` in that order. With fewer than `n`
keys it runs as many rounds as there are keys, and it does not compare `n` with `NROUNDS`: outside the function's
stated domain the spec fixes only the engine's errors (N8; DESIGN CHOICE, unsafe: notes/assumptions/15.md). -/
def encryptRounds (c : Cfg) (p : Block) (roundKeys : List Block) (n : Nat) : Block :=
  (roundKeys.take n).foldl (forwardRound c) p

/-- `decryptRounds(y, roundKeys, n)` (R138, D22): inverse rounds with keys `n-1` down to `0`. With fewer than `n` keys
it runs the keys there are, the last one first, and it does not compare `n` with `NROUNDS`: outside the function's
stated domain the spec fixes only the engine's errors (N8; DESIGN CHOICE, unsafe: notes/assumptions/16.md). -/
def decryptRounds (c : Cfg) (y : Block) (roundKeys : List Block) (n : Nat) : Block :=
  (roundKeys.take n).reverse.foldl (inverseRound c) y

/-- A block argument of a whole-cipher function: "integer-in/integer-out" or a cell sequence (R134). -/
inductive BlockArg where
  | int (v : Nat)
  | cells (x : Block)
deriving DecidableEq, Repr

/-- The block size checks of R134 and the block they leave. -/
def BlockArg.toBlock (c : Cfg) : BlockArg → Except FnError Block
  | .int v => if v < 2 ^ c.W then .ok (intToCells v c.ncells c.nbits) else .error .sizeMismatch
  | .cells x =>
    if x.length = c.ncells ∧ ∀ v ∈ x, v < 2 ^ c.nbits then .ok x else .error .sizeMismatch

/-- A result in the representation the caller chose (R134). -/
def BlockArg.like (c : Cfg) (y : Block) : BlockArg → BlockArg
  | .int _ => .int (cellsToInt y c.nbits)
  | .cells _ => .cells y

/-- The master-key size check of R134, for a key of `width` bits. -/
def checkedKey (key width : Nat) : Except FnError Nat :=
  if key < 2 ^ width then .ok key else .error .sizeMismatch

/-- `encrypt(plaintext, key)` (R134). -/
def encrypt (c : Cfg) (p : BlockArg) (key : Nat) : Except FnError BlockArg := do
  let x ← p.toBlock c
  let k ← checkedKey key c.KW
  return p.like c (encryptRounds c x (keySchedule c k) c.nrounds)

/-- `decrypt(ciphertext, key)` (R135): the same round keys in reverse round order. -/
def decrypt (c : Cfg) (y : BlockArg) (key : Nat) : Except FnError BlockArg := do
  let x ← y.toBlock c
  let k ← checkedKey key c.KW
  return y.like c (decryptRounds c x (keySchedule c k) c.nrounds)

end Sys2Proof.Machine
end

