-- ==== Sys2Proof/Machine/ReflectorCipher.lean ====
section
/-! DEFINITION. The reflector cipher of the function layer (spec/43_reflector.md R170 to R175): the key tuple,
the middle layer, encryption under a tuple, decryption by relabelling. -/

namespace Sys2Proof.Machine

/-- The four sub-keys as integers (R171): `k0` is the most significant half of the master key (D17),
`k0p = rotateLeft(k0, W, W-1) XOR (k0 >> (W-1))`, `k1a = k1 XOR ALPHA`. -/
def reflectorSubkeys (c : Cfg) (mk : Nat) : KeyTuple Nat :=
  let k0 := slice mk (2 * c.W - 1) c.W
  let k1 := slice mk (c.W - 1) 0
  { k0 := k0
    k1 := k1
    k0p := rotateLeft k0 c.W (c.W - 1) ^^^ (k0 >>> (c.W - 1))
    k1a := k1 ^^^ c.alpha }

/-- `reflectorKeySchedule(masterKey)` (R171): the four sub-keys as blocks. -/
def reflectorKeySchedule (c : Cfg) (mk : Nat) : KeyTuple Block :=
  let t := reflectorSubkeys c mk
  { k0 := intToCells t.k0 c.ncells c.nbits
    k1 := intToCells t.k1 c.ncells c.nbits
    k0p := intToCells t.k0p c.ncells c.nbits
    k1a := intToCells t.k1a c.ncells c.nbits }

/-- `middleLayer(x)` (R172, D35): `SBOX` on both sides, always with `M`, no key. -/
def middleLayer (c : Cfg) (x : Block) : Block :=
  substitute (matrixMultiply c (substitute x c.sbox) c.m) c.sbox

/-- `relabel((a, b, c, d)) = (c, d, a, b)` (R174). -/
def relabel {α : Type} (t : KeyTuple α) : KeyTuple α :=
  { k0 := t.k0p, k1 := t.k1a, k0p := t.k0, k1a := t.k1 }

/-- `t` forward rounds, all with the key `k` (R173). -/
def forwardHalf (c : Cfg) (k : Block) : Nat → Block → Block
  | 0, x => x
  | t + 1, x => forwardHalf c k t (forwardRound c x k)

/-- `t` inverse rounds, all with the key `k` (R173). -/
def inverseHalf (c : Cfg) (k : Block) : Nat → Block → Block
  | 0, x => x
  | t + 1, x => inverseHalf c k t (inverseRound c x k)

/-- `reflectorEncryptT(p, (a, b, c, d))` (R173). -/
def reflectorEncryptT (c : Cfg) (p : Block) (t : KeyTuple Block) : Block :=
  let x := add (add p t.k0) t.k1
  let x := forwardHalf c t.k1 c.rhalf x
  let x := middleLayer c x
  let x := inverseHalf c t.k1a c.rhalf x
  add (add x t.k1a) t.k0p

/-- `reflectorDecryptT(y, t) = reflectorEncryptT(y, relabel(t))` (R175). -/
def reflectorDecryptT (c : Cfg) (y : Block) (t : KeyTuple Block) : Block :=
  reflectorEncryptT c y (relabel t)

/-- `reflectorEncrypt(p, mk)` with the size checks of R173. -/
def reflectorEncrypt (c : Cfg) (p : BlockArg) (mk : Nat) : Except FnError BlockArg := do
  let x ← p.toBlock c
  let k ← checkedKey mk c.TKW
  return p.like c (reflectorEncryptT c x (reflectorKeySchedule c k))

/-- `reflectorDecrypt(y, mk)` (R175). -/
def reflectorDecrypt (c : Cfg) (y : BlockArg) (mk : Nat) : Except FnError BlockArg := do
  let x ← y.toBlock c
  let k ← checkedKey mk c.TKW
  return y.like c (reflectorDecryptT c x (reflectorKeySchedule c k))

end Sys2Proof.Machine
end

