-- ==== Sys2Proof/Machine/Reflector.lean ====
section
/-! DEFINITION. The reflector cipher commands (spec/43_reflector.md R180 to R186). -/

namespace Sys2Proof.Machine

/-- `RKSCH` (R180): the key tuple from the double-width master key on `din[2*W-1:0]`. -/
def execRksch (s : State) : Outcome := s.commit do
  let mk ← dinKey s s.cfg.TKW
  return (s.writeTuple (reflectorKeySchedule s.cfg mk), 0)

/-- `RKSWP` (R181): relabel the key tuple in place, all read before any write. -/
def execRkswp (s : State) : Outcome := s.commit do
  let t ← s.readTuple
  return (s.writeTuple (relabel t), 0)

/-- `RNDFT j` (R182): `S <- forwardRound(S, TK[j])`. -/
def execRndft (j : Idx) (s : State) : Outcome := s.commit (s.transformTk j (forwardRound s.cfg))

/-- `RNDIT j` (R183): `S <- inverseRound(S, TK[j])`. -/
def execRndit (j : Idx) (s : State) : Outcome := s.commit (s.transformTk j (inverseRound s.cfg))

/-- `MID` (R184): `S <- middleLayer(S)`. -/
def execMid (s : State) : Outcome := s.commit (s.transform (middleLayer s.cfg))

/-- `RENC` (R185): reflector encryption under the tuple in `TK`. -/
def execRenc (s : State) : Outcome := s.commit (s.transformTuple (reflectorEncryptT s.cfg))

/-- `RDEC` (R186): reflector decryption; the relabelling is applied to the values read, and `TK` is unchanged. -/
def execRdec (s : State) : Outcome :=
  s.commit (s.transformTuple fun x t => reflectorEncryptT s.cfg x (relabel t))

end Sys2Proof.Machine
end

