-- ==== Sys2Proof/Machine/Spn.lean ====
section
/-! DEFINITION. The SPN cipher commands (spec/42_spn_cipher.md R139 to R146). -/

namespace Sys2Proof.Machine

/-- `KSCH` (R140): the whole round-key file from the master key on `din[KW-1:0]`. -/
def execKsch (s : State) : Outcome := s.commit do
  let mk ← dinKey s s.cfg.KW
  return (s.writeRks (keySchedule s.cfg mk), 0)

/-- `RNDF r` (R141): `S <- forwardRound(S, RK[r])`. -/
def execRndf (r : Idx) (s : State) : Outcome := s.commit (s.transformRk r (forwardRound s.cfg))

/-- `RNDI r` (R142): `S <- inverseRound(S, RK[r])`. -/
def execRndi (r : Idx) (s : State) : Outcome := s.commit (s.transformRk r (inverseRound s.cfg))

/-- `ENC` (R143): forward rounds with `RK[0]` up to `RK[NROUNDS-1]`. -/
def execEnc (s : State) : Outcome :=
  s.commit (s.transformRks s.cfg.nrounds fun x ks => encryptRounds s.cfg x ks s.cfg.nrounds)

/-- `DEC` (R144): inverse rounds with `RK[NROUNDS-1]` down to `RK[0]`. -/
def execDec (s : State) : Outcome :=
  s.commit (s.transformRks s.cfg.nrounds fun x ks => decryptRounds s.cfg x ks s.cfg.nrounds)

/-- `ENCR n` (R145): forward rounds with `RK[0]` up to `RK[n-1]`. -/
def execEncr (n : Idx) (s : State) : Outcome := s.commit do
  roundCount s n
  s.transformRks n.toNat fun x ks => encryptRounds s.cfg x ks n.toNat

/-- `DECR n` (R146): inverse rounds with `RK[n-1]` down to `RK[0]`. -/
def execDecr (n : Idx) (s : State) : Outcome := s.commit do
  roundCount s n
  s.transformRks n.toNat fun x ks => decryptRounds s.cfg x ks n.toNat

end Sys2Proof.Machine
end

