-- ==== Sys2Proof/Machine/Dispatch.lean ====
section
/-! DEFINITION. One command to one meaning (spec/30_encoding.md R66). -/

namespace Sys2Proof.Machine

def exec (i : Instr) (s : State) : Host.Outcome State Fault Refusal :=
  match i with
  | .nop => Sys2Proof.Machine.execNop s
  | .clrerr => Sys2Proof.Machine.execClrerr s
  | .clr => Sys2Proof.Machine.execClr s
  | .lds => Sys2Proof.Machine.execLds s
  | .rds => Sys2Proof.Machine.execRds s
  | .ldrk r => Sys2Proof.Machine.execLdrk r s
  | .rdrk r => Sys2Proof.Machine.execRdrk r s
  | .ldtk j => Sys2Proof.Machine.execLdtk j s
  | .rdtk j => Sys2Proof.Machine.execRdtk j s
  | .sub => Sys2Proof.Machine.execSub s
  | .subi => Sys2Proof.Machine.execSubi s
  | .prm => Sys2Proof.Machine.execPrm s
  | .prmi => Sys2Proof.Machine.execPrmi s
  | .mmul => Sys2Proof.Machine.execMmul s
  | .mmuli => Sys2Proof.Machine.execMmuli s
  | .addrk r => Sys2Proof.Machine.execAddrk r s
  | .addtk j => Sys2Proof.Machine.execAddtk j s
  | .addd => Sys2Proof.Machine.execAddd s
  | .ksch => Sys2Proof.Machine.execKsch s
  | .rndf r => Sys2Proof.Machine.execRndf r s
  | .rndi r => Sys2Proof.Machine.execRndi r s
  | .enc => Sys2Proof.Machine.execEnc s
  | .dec => Sys2Proof.Machine.execDec s
  | .encr n => Sys2Proof.Machine.execEncr n s
  | .decr n => Sys2Proof.Machine.execDecr n s
  | .rksch => Sys2Proof.Machine.execRksch s
  | .rkswp => Sys2Proof.Machine.execRkswp s
  | .rndft j => Sys2Proof.Machine.execRndft j s
  | .rndit j => Sys2Proof.Machine.execRndit j s
  | .mid => Sys2Proof.Machine.execMid s
  | .renc => Sys2Proof.Machine.execRenc s
  | .rdec => Sys2Proof.Machine.execRdec s

end Sys2Proof.Machine
end

