-- ==== Sys2Proof/Machine/Step.lean ====
section
/-! DEFINITION. One step: the host's next event (spec/00_scope.md R15, spec/70_reset_and_hazards.md R283). A
request is decoded and executed, or raises `E_ILLCMD` (spec/30_encoding.md R64); the reset input puts the engine
in the reset state (R280); with nothing presented the engine idles. -/

namespace Sys2Proof.Machine

/-- One step of the engine: one request in, one response out (R60, D1). There is no program counter (R27): what
runs next is the head of the host's script. -/
def step (s : State) : Host.Outcome State Fault Refusal :=
  match s.script with
  | [] => .next s.idle
  | .reset :: rest => .next (s.takeReset rest)
  | .command q :: rest =>
    if q.onBus s.cfg then
      match decode q.cmd with
      | .error _ => .next ((s.accept q rest).raise .illcmd)
      | .ok i => exec i (s.accept q rest)
    else .fault .dinOffBus

/-- `s` with the command whose table bits are `w` presented next, carrying the value now on `din`:
the load of a program from outside the machine (notes/assumptions/4.md). -/
def State.withFetchWord (s : State) (nbits w : Nat) : State :=
  { s with script := .command { cmd := BitVec.ofNat 16 (w % 2 ^ nbits), din := s.din } :: s.script }

end Sys2Proof.Machine
end

