-- ==== Sys2Proof/Machine/HostSide.lean ====
section
/-! DEFINITION. The host-side reference: what the spec describes beside the engine and leaves out of the
hardware (spec/00_scope.md R5), kept so that nothing it says is lost. The codec helpers of
spec/40_cellcodec.md R84 and R85, the assembler syntax and the macros of spec/30_encoding.md R69 and R70, the
enumerator and the search of spec/44_enumerator_and_search.md R200 to R206. `step` uses none of it. Its open
points: notes/assumptions/12.md. -/

namespace Sys2Proof.Machine

/-- The value of a hexadecimal digit of either case (R84, D39). -/
def hexDigit (ch : Char) : Option Nat :=
  let n := ch.toNat
  if 48 ≤ n ∧ n ≤ 57 then some (n - 48)
  else if 65 ≤ n ∧ n ≤ 70 then some (n - 55)
  else if 97 ≤ n ∧ n ≤ 102 then some (n - 87)
  else none

/-- One or more hexadecimal digits as an unsigned integer, `v` being what was read before them. -/
def hexDigits (v : Nat) : List Char → Option Nat
  | [] => none
  | [ch] => (hexDigit ch).map (v * 16 + ·)
  | ch :: rest => (hexDigit ch).bind fun d => hexDigits (v * 16 + d) rest

/-- `hexToCells(hexString, ncells, nbits)` (R84, D39): an optional `0x`, then one or more digits; `none` is the
host's parse error. The string is given as its characters. -/
def hexToCells (text : List Char) (ncells nbits : Nat) : Option Block :=
  let digits := match text with
    | '0' :: 'x' :: rest => rest
    | other => other
  (hexDigits 0 digits).map fun v => intToCells v ncells nbits

/-- `buildMask(width, bitIndices)` (R85): with no list, all bits set; with a list, exactly those bits. -/
def buildMask (width : Nat) : Option (List Nat) → Except FnError Nat
  | none => .ok (2 ^ width - 1)
  | some is =>
    if is.all (fun i => decide (i < width)) then .ok (is.foldl (fun m i => m ||| 2 ^ i) 0)
    else .error .rangeError

/-- A `PartialBitEnumerator`: its own width, the listed positions in any order, counted from the most significant
bit, and the fixed value of the others (R200, R201, D40). -/
structure Enumerator where
  width : Nat
  positions : List Nat
  fixedOne : Bool
deriving DecidableEq, Repr

/-- The positions as the "ordered set" they stand for (R200): each once, the lowest-numbered first, whatever the order
they were listed in (that a repeated position counts once is DEDUCED: notes/assumptions/17.md). -/
def Enumerator.ascending (e : Enumerator) : List Nat := e.positions.dedup.insertionSort (· ≤ ·)

/-- The counter `t` spread over ascending positions (R201): its most significant bit goes to the first, that is the
lowest-numbered, its least significant bit to the last. A position at or above the width, for which the spec names
no result, varies bit 0 of the word (DESIGN CHOICE, unsafe: notes/assumptions/17.md). -/
def spread (width t : Nat) : List Nat → Nat
  | [] => 0
  | p :: rest => (if t.testBit rest.length then 2 ^ (width - 1 - p) else 0) ||| spread width t rest

/-- Item `t` of the sequence (R201): the base word XOR `spread(t)`. -/
def Enumerator.item (e : Enumerator) (t : Nat) : Nat :=
  (if e.fixedOne then 2 ^ e.width - 1 else 0) ^^^ spread e.width t e.ascending

/-- The whole sequence, `2^k` words, the counter running from 0 (R200, R201). -/
def Enumerator.items (e : Enumerator) : List Nat := (List.range (2 ^ e.ascending.length)).map e.item

/-- The three known pairs of the search (R203): `(P1, C1)` and the auxiliary `(P2, C2)`, `(P3, C3)`. -/
structure KnownPairs where
  p1 : Block
  c1 : Block
  p2 : Block
  c2 : Block
  p3 : Block
  c3 : Block
deriving DecidableEq, Repr

/-- Step 1 (R204): the table from intermediate values to half-keys; the last writer stands first. -/
def searchTable (c : Cfg) (ps : KnownPairs) (candidates : List Nat) : List (Block × Nat) :=
  (candidates.map fun kL => (encryptRounds c ps.p1 [intToCells kL c.ncells c.nbits] 1, kL)).reverse

/-- Step 2 (R205): the candidate master keys `kL ++ kR` whose halves meet. With an enumerator wider than a half-key
(`W` bits), for which the spec names no result, the round key is truncated and the whole of `kR` is ORed into
`kL << W`, so that the halves overlap (DESIGN CHOICE, unsafe: notes/assumptions/18.md). With `NROUNDS >= 3` the `2*W` bits
of `kL ++ kR` are fewer than `KW`, a conflict the spec leaves unresolved (C4): the candidate is that integer, the bits
above it 0, so that `kL` and `kR` are its round keys `NROUNDS-2` and `NROUNDS-1` (DESIGN CHOICE, unsafe: the same
entry). -/
def searchProbe (c : Cfg) (ps : KnownPairs) (table : List (Block × Nat)) (candidates : List Nat) : List Nat :=
  candidates.filterMap fun kR =>
    (table.lookup (decryptRounds c ps.c1 [intToCells kR c.ncells c.nbits] 1)).map fun kL => (kL <<< c.W) ||| kR

/-- Does a key take a known plaintext to its ciphertext under the full cipher (R206)? Where `encrypt` fails with
`SizeMismatch`, for which the spec names no result of the search, the answer is no (DESIGN CHOICE, unsafe:
notes/assumptions/18.md). -/
def keyFitsPair (c : Cfg) (p y : Block) (key : Nat) : Bool :=
  match encrypt c (.cells p) key with
  | .ok (.cells z) => z == y
  | _ => false

/-- `MeetInMiddleSearch` (R203 to R206): table, probe, verification against both auxiliary pairs; no match is an
empty list (R207). -/
def meetInMiddle (c : Cfg) (ps : KnownPairs) (e : Enumerator) : List Nat :=
  (searchProbe c ps (searchTable c ps e.items) e.items).filter fun key =>
    keyFitsPair c ps.p2 ps.c2 key && keyFitsPair c ps.p3 ps.c3 key

/-- The mnemonic of a command, in upper case (R66, R69). -/
def mnemonic : Instr → String
  | .nop => "NOP"
  | .clrerr => "CLRERR"
  | .clr => "CLR"
  | .lds => "LDS"
  | .rds => "RDS"
  | .ldrk _ => "LDRK"
  | .rdrk _ => "RDRK"
  | .ldtk _ => "LDTK"
  | .rdtk _ => "RDTK"
  | .sub => "SUB"
  | .subi => "SUBI"
  | .prm => "PRM"
  | .prmi => "PRMI"
  | .mmul => "MMUL"
  | .mmuli => "MMULI"
  | .addrk _ => "ADDRK"
  | .addtk _ => "ADDTK"
  | .addd => "ADDD"
  | .ksch => "KSCH"
  | .rndf _ => "RNDF"
  | .rndi _ => "RNDI"
  | .enc => "ENC"
  | .dec => "DEC"
  | .encr _ => "ENCR"
  | .decr _ => "DECR"
  | .rksch => "RKSCH"
  | .rkswp => "RKSWP"
  | .rndft _ => "RNDFT"
  | .rndit _ => "RNDIT"
  | .mid => "MID"
  | .renc => "RENC"
  | .rdec => "RDEC"

/-- The data-operand classes of a command (R63). -/
inductive DataClass where
  | none
  | w
  | kw
  | tkw
deriving DecidableEq, Repr

/-- The "data" column of R66. -/
def dataClass : Instr → DataClass
  | .lds | .ldrk _ | .ldtk _ | .addd => .w
  | .ksch => .kw
  | .rksch => .tkw
  | .nop | .clrerr | .clr | .rds | .rdrk _ | .rdtk _ | .sub | .subi | .prm | .prmi | .mmul | .mmuli => .none
  | .addrk _ | .addtk _ | .rndf _ | .rndi _ | .enc | .dec | .encr _ | .decr _ | .rkswp => .none
  | .rndft _ | .rndit _ | .mid | .renc | .rdec => .none

/-- A request as one line of R69's assembler syntax: the mnemonic, the operand byte in decimal where the command has
one, and the data-in value in hexadecimal with the prefix `0x` where the command takes it. -/
def asmLine (i : Instr) (din : Nat) : List Char :=
  let idx := if takesIdx i then [Nat.toDigits 10 (idxOf i).toNat] else []
  let data := if dataClass i = .none then [] else [['0', 'x'] ++ Nat.toDigits 16 din]
  match idx ++ data with
  | [] => (mnemonic i).toList
  | operands => (mnemonic i).toList ++ [' '] ++ List.intercalate [',', ' '] operands

/-- A command with the data value presented with it. -/
def request (i : Instr) (din : Nat) : Request := { cmd := encode i, din := din }

/-- The `LDRK` prefix of `ENCROUNDS` and `DECROUNDS`: entry `r`, `r+1`, ... of the file (R70). -/
def loadRoundKeys (r : Nat) : List Nat → List Request
  | [] => []
  | k :: ks => request (.ldrk (BitVec.ofNat 8 r)) k :: loadRoundKeys (r + 1) ks

/-- `ENCRYPT p, k` (R70). -/
def macroEncrypt (p k : Nat) : List Request :=
  [request .ksch k, request .lds p, request .enc 0, request .rds 0]

/-- `DECRYPT c, k` (R70). -/
def macroDecrypt (y k : Nat) : List Request :=
  [request .ksch k, request .lds y, request .dec 0, request .rds 0]

/-- `ENCROUNDS p, (k0, ..., k(n-1)), n` (R70). -/
def macroEncRounds (p : Nat) (ks : List Nat) : List Request :=
  loadRoundKeys 0 ks ++ [request .lds p, request (.encr (BitVec.ofNat 8 ks.length)) 0, request .rds 0]

/-- `DECROUNDS c, (k0, ..., k(n-1)), n` (R70). -/
def macroDecRounds (y : Nat) (ks : List Nat) : List Request :=
  loadRoundKeys 0 ks ++ [request .lds y, request (.decr (BitVec.ofNat 8 ks.length)) 0, request .rds 0]

/-- `RENCRYPT p, k` (R70). -/
def macroREncrypt (p k : Nat) : List Request :=
  [request .rksch k, request .lds p, request .renc 0, request .rds 0]

/-- `RDECRYPT c, k` (R70). -/
def macroRDecrypt (y k : Nat) : List Request :=
  [request .rksch k, request .lds y, request .rdec 0, request .rds 0]

/-- `RDECRYPT2 c, k` (R70): decryption as encryption under the relabelled tuple. -/
def macroRDecrypt2 (y k : Nat) : List Request :=
  [request .rksch k, request .rkswp 0, request .lds y, request .renc 0, request .rds 0]

/-- How a macro ends: with the last response's data-out value, or with the first non-zero code (R70); `stopped`
if a step gave no response. -/
inductive MacroResult where
  | value (dout : Nat)
  | failed (code : ErrCode)
  | stopped
deriving DecidableEq, Repr

/-- The host presents the requests one at a time and stops at the first non-zero code (R70); `dout` is the value
of the response before. -/
def runMacro (s : State) (dout : Nat) : List Request → MacroResult
  | [] => .value dout
  | q :: rest =>
    match step { s with script := [.command q] } with
    | .next t =>
      match t.resp with
      | some r => if r.code = .ok then runMacro t r.dout rest else .failed r.code
      | none => .stopped
    | _ => .stopped

end Sys2Proof.Machine
end

