-- ==== Sys2Proof/WellFormed.lean ====
section
/-! DEFINITION. Which commands are in the range of the instance (spec/30_encoding.md R62) and which blocks
fit it (spec/10_state.md R21). A command that is not well formed still decodes and still runs: it raises
`E_RANGE` (R253). -/

namespace Sys2Proof

/-- R62's legal range of the `idx` operand, command by command: `r < NROUNDS`, `j < 4`, `n <= NROUNDS`. -/
def Instr.wellFormed (c : Cfg) : Instr → Bool
  | .nop | .clrerr | .clr | .lds | .rds => true
  | .ldrk r | .rdrk r => decide (r.toNat < c.nrounds)
  | .ldtk j | .rdtk j => decide (j.toNat < 4)
  | .sub | .subi | .prm | .prmi | .mmul | .mmuli => true
  | .addrk r => decide (r.toNat < c.nrounds)
  | .addtk j => decide (j.toNat < 4)
  | .addd | .ksch => true
  | .rndf r | .rndi r => decide (r.toNat < c.nrounds)
  | .enc | .dec => true
  | .encr n | .decr n => decide (n.toNat ≤ c.nrounds)
  | .rksch | .rkswp => true
  | .rndft j | .rndit j => decide (j.toNat < 4)
  | .mid | .renc | .rdec => true

/-- A block of the instance: `NCELLS` cells, each in `[0, 2^NBITS)` (R21). -/
def blockFits (c : Cfg) (x : Block) : Bool :=
  x.length == c.ncells && x.all (fun v => decide (v < 2 ^ c.nbits))

/-- A register is either without a value or holds a block of the instance. -/
def regFits (c : Cfg) : Option Block → Bool
  | none => true
  | some x => blockFits c x

end Sys2Proof
end

