-- ==== Sys2Proof/Safety.lean ====
section
/-! DEFINITION. What the statements speak of: the states a run can reach (spec/10_state.md R21 to R28), the error
each command reports (spec/60_exceptions.md R263), the codes and the sticky register of a run (R257), and
commands executed one after another (spec/30_encoding.md R71). -/

namespace Sys2Proof.Machine

/-- The codes a command can produce: 2 and 4 are reserved and never produced (R250, R252, R254). -/
def produced (e : ErrCode) : Bool := e != .shape && e != .valid

/-- A response the engine can give: a code it produces, a `W`-bit `dout`, 0 with every error (R45, R250). -/
def respFits (c : Cfg) : Option Response → Bool
  | none => true
  | some r => produced r.code && decide (r.dout < 2 ^ c.W) && (r.code == .ok || r.dout == 0)

/-- Every entry of a key tuple fits the instance. -/
def tupleFits (c : Cfg) (t : KeyTuple Block) : Bool :=
  blockFits c t.k0 && blockFits c t.k1 && blockFits c t.k0p && blockFits c t.k1a

/-- The well-formed states: `S`, `RK` and `TK` have the instance's shape, each of their cells is `NBITS` wide
(R21, R23, R25), `ERR` holds a code that is produced (R28), and so does the response. -/
def State.wf (s : State) : Bool :=
  regFits s.cfg s.S &&
  (s.RK.length == s.cfg.nrounds && s.RK.all (regFits s.cfg)) &&
  (regFits s.cfg s.TK.k0 && regFits s.cfg s.TK.k1 && regFits s.cfg s.TK.k0p && regFits s.cfg s.TK.k1a) &&
  produced s.ERR && respFits s.cfg s.resp

/-- Does an event of the host's script fit the ports of the instance (R60)? -/
def HostEvent.onBus (c : Cfg) : HostEvent → Bool
  | .command q => q.onBus c
  | .reset => true

/-- A safe run: every one of the first `k` steps answers a next state, so the engine goes on accepting commands
(R261). -/
def Safe (k : Nat) (s : State) : Prop := ∃ t, Sys2Proof.core.run k s = .next t

/-- R263's table with R258's priority: the code a command reports on a state, from the registers that hold a
value, its operand and `din` alone. -/
def codeOn (s : State) (i : Instr) : ErrCode :=
  let rk (r : Idx) (needS : Bool) : ErrCode :=
    if s.cfg.nrounds ≤ r.toNat then .range
    else if (needS && !s.SV) || !s.RKV r.toNat then .size else .ok
  let tk (j : Idx) (needS : Bool) : ErrCode :=
    if 4 ≤ j.toNat then .range
    else if (needS && !s.SV) || !s.TKV j.toNat then .size else .ok
  let rks (n : Nat) : ErrCode :=
    if !s.SV || (List.range n).any (fun r => !s.RKV r) then .size else .ok
  let tks (needS : Bool) : ErrCode :=
    if (needS && !s.SV) || (List.range 4).any (fun j => !s.TKV j) then .size else .ok
  let blk : ErrCode := if s.SV then .ok else .size
  match i with
  | .nop | .clrerr | .clr | .lds => .ok
  | .rds | .sub | .subi | .prm | .prmi | .mmul | .mmuli | .addd | .mid => blk
  | .ldrk r => if s.cfg.nrounds ≤ r.toNat then .range else .ok
  | .rdrk r => rk r false
  | .ldtk j => if 4 ≤ j.toNat then .range else .ok
  | .rdtk j => tk j false
  | .addrk r | .rndf r | .rndi r => rk r true
  | .addtk j | .rndft j | .rndit j => tk j true
  | .ksch => if s.din >>> s.cfg.KW ≠ 0 then .size else .ok
  | .enc | .dec => rks s.cfg.nrounds
  | .encr n | .decr n => if s.cfg.nrounds < n.toNat then .range else rks n.toNat
  | .rksch => if s.din >>> s.cfg.TKW ≠ 0 then .size else .ok
  | .rkswp => tks false
  | .renc | .rdec => tks true

/-- R34's `S` column: does a command write or invalidate `S`? -/
def writesS : Instr → Bool
  | .nop | .clrerr | .rds | .ldrk _ | .rdrk _ | .ldtk _ | .rdtk _ | .ksch | .rksch | .rkswp => false
  | .clr | .lds | .sub | .subi | .prm | .prmi | .mmul | .mmuli | .addrk _ | .addtk _ | .addd => true
  | .rndf _ | .rndi _ | .enc | .dec | .encr _ | .decr _ | .rndft _ | .rndit _ | .mid | .renc | .rdec => true

/-- R34's `RK` column: does a command write or invalidate an entry of `RK`? -/
def writesRK : Instr → Bool
  | .clr | .ldrk _ | .ksch => true
  | .nop | .clrerr | .lds | .rds | .rdrk _ | .ldtk _ | .rdtk _ | .sub | .subi | .prm | .prmi => false
  | .mmul | .mmuli | .addrk _ | .addtk _ | .addd | .rndf _ | .rndi _ | .enc | .dec | .encr _ => false
  | .decr _ | .rksch | .rkswp | .rndft _ | .rndit _ | .mid | .renc | .rdec => false

/-- R34's `TK` column: does a command write or invalidate an entry of `TK`? -/
def writesTK : Instr → Bool
  | .clr | .ldtk _ | .rksch | .rkswp => true
  | .nop | .clrerr | .lds | .rds | .ldrk _ | .rdrk _ | .rdtk _ | .sub | .subi | .prm | .prmi => false
  | .mmul | .mmuli | .addrk _ | .addtk _ | .addd | .ksch | .rndf _ | .rndi _ | .enc | .dec => false
  | .encr _ | .decr _ | .rndft _ | .rndit _ | .mid | .renc | .rdec => false

/-- Execute commands that take no data operand one after another. -/
def execAll : List Instr → State → Outcome
  | [], s => .next s
  | i :: rest, s =>
    match exec i s with
    | .next t => execAll rest t
    | .fault f => .fault f
    | .refused r => .refused r

/-- Two outcomes are next states that differ at most in the response, which is no state of the engine (R33). -/
def SameFinalState (o p : Outcome) : Prop :=
  ∃ t u, o = .next t ∧ p = .next u ∧ { t with resp := none } = { u with resp := none }

/-- The response of a successful command (R60). -/
def okResp (dout : Nat) : Option Response := some { code := .ok, dout := dout }

/-- The response of a failing command (R256). -/
def errResp (e : ErrCode) : Option Response := some { code := e, dout := 0 }

/-- `RK[0 .. n-1]` hold the blocks `ks`, in order. -/
abbrev HoldsRoundKeys (s : State) (n : Nat) (ks : List Block) : Prop :=
  ks.length = n ∧ ∀ r < n, s.rkVal r = ks[r]?

/-- `TK[0 .. 3]` hold the tuple `t`. -/
abbrev HoldsTuple (s : State) (t : KeyTuple Block) : Prop :=
  s.TK = { k0 := some t.k0, k1 := some t.k1, k0p := some t.k0p, k1a := some t.k1a }

/-- The result codes of the first `k` steps, in order; a step without a response contributes none. -/
def runCodes : Nat → State → List ErrCode
  | 0, _ => []
  | k + 1, s =>
    match step s with
    | .next t => (t.resp.map (·.code)).toList ++ runCodes k t
    | _ => []

/-- The first error of a list of result codes, `OK` if there is none (R257). -/
def firstError : List ErrCode → ErrCode
  | [] => .ok
  | e :: rest => if e = .ok then firstError rest else e

/-- An event that sets `ERR` to 0: the reset input, or the word of `CLRERR` (R28). -/
def clearsErr : HostEvent → Bool
  | .reset => true
  | .command q => decode q.cmd == .ok .clrerr

end Sys2Proof.Machine
end

