-- ==== Sys2Proof/Certificates/Slice0/Obligations.lean ====
section
/-! DEFINITION. The statements for the provers: what the numbered rules of spec/ say of this machine. Every one
quantifies over the engine (or over a state that carries one), so it holds of every valid configuration, unless
it names one. An equation `exec i s = .next { s with … }` states an instruction's result, its completion and its
frame at once: the fields not named are unchanged. -/

open Sys2Proof Sys2Proof.Machine

-- decoding and encoding (30_encoding.md)

/-- Decoding the word of a command gives the command, with every operand (R61, R64, R66). -/
def Obligations.DecodeOfEncode : Prop :=
  ∀ i : Instr, decode (encode i) = .ok i

/-- A word that decodes is the word of its command: no bit of it is dropped (R61, R66). -/
def Obligations.EncodeOfDecode : Prop :=
  ∀ (w : CmdWord) (i : Instr), decode w = .ok i → encode i = w

/-- A word is a command exactly when it matches the command's table row under the mask of its format, the operand
byte being the operand in format `I` and zero in format `N` (R61). -/
def Obligations.WordsMatchTheirTableRow : Prop :=
  ∀ (w : CmdWord) (i : Instr), decode w = .ok i ↔
    (w &&& (if takesIdx i then 0xFF00 else 0xFFFF) = opcodeOf i ++ (0 : BitVec 8) ∧
      idxOf i = if takesIdx i then idxField w else 0)

/-- Words written out from R66's table decode to the commands they stand for, one or more of every group. -/
def Obligations.WrittenWordsDecode : Prop :=
  decode 0x0000 = .ok .nop ∧ decode 0x0200 = .ok .clr ∧ decode 0x1000 = .ok .lds ∧
    decode 0x1202 = .ok (.ldrk 2) ∧ decode 0x2400 = .ok .mmul ∧ decode 0x27FF = .ok (.addtk 255) ∧
    decode 0x3300 = .ok .enc ∧ decode 0x3503 = .ok (.encr 3) ∧ decode 0x4301 = .ok (.rndit 1) ∧
    decode 0x4600 = .ok .rdec

/-- The words that are no command are those of R65's opcode ranges and the format-`N` words with a non-zero
operand byte; no word but `0x0000` is `NOP`; and presenting such a word raises `E_ILLCMD`, changes nothing but `ERR`
and returns `dout = 0` (R65). -/
def Obligations.IllegalWordsRaiseIllcmd : Prop :=
  let illegal (w : CmdWord) : Prop :=
    (0x0300 ≤ w.toNat ∧ w.toNat ≤ 0x0FFF) ∨ (0x1600 ≤ w.toNat ∧ w.toNat ≤ 0x1FFF) ∨
      (0x2900 ≤ w.toNat ∧ w.toNat ≤ 0x2FFF) ∨ (0x3700 ≤ w.toNat ∧ w.toNat ≤ 0x3FFF) ∨ 0x4700 ≤ w.toNat ∨
      ∃ i, takesIdx i = false ∧ opcodeOf i = opcodeField w ∧ idxField w ≠ 0
  (∀ w, (∃ e, decode w = .error e) ↔ illegal w) ∧
  (∀ w, decode w = .ok .nop ↔ w = 0x0000) ∧
  ∀ s q rest, s.script = .command q :: rest → q.onBus s.cfg = true → illegal q.cmd →
    step s = .next { s with
      script := rest
      din := q.din
      ERR := if s.ERR = .ok then .illcmd else s.ERR
      resp := errResp .illcmd }

-- one step

/-- A step runs the decoded command: with a request presented whose word decodes to `i`, the step is `exec i` with
the request taken off the script and its `din` sampled (R15, R60, R284). -/
def Obligations.StepRunsTheDecodedCommand : Prop :=
  ∀ s q rest i, s.script = .command q :: rest → q.onBus s.cfg = true → decode q.cmd = .ok i →
    step s = exec i { s with script := rest, din := q.din }

/-- The other steps. The reset input gives the reset state on the same engine and no response (R280). With nothing
presented the engine keeps its registers, and a request that does not fit the bus is no request: these two are the
model's choices (notes/assumptions/3.md and 5.md). -/
def Obligations.StepWithoutACommand : Prop :=
  (∀ s rest, s.script = .reset :: rest → step s = .next { State.resetOf s.engine with script := rest }) ∧
  (∀ s, s.script = [] → step s = .next { s with resp := none }) ∧
  (∀ s q rest, s.script = .command q :: rest → 2 ^ s.cfg.DW ≤ q.din → step s = .fault .dinOffBus)

/-- After reset every valid bit is 0, `ERR` is 0, no cell has a value, and the configuration is as before: so for the
state a run starts from and for the state the reset input leaves (R32). -/
def Obligations.ResetLeavesNoRegisterWithAValue : Prop :=
  let blank (t : State) : Prop :=
    t.SV = false ∧ (∀ r, t.RKV r = false) ∧ (∀ j, t.TKV j = false) ∧ t.ERR = .ok ∧
      t.S = none ∧ (∀ r, t.rkVal r = none) ∧ (∀ j, t.tkVal j = none)
  (∀ e : Engine, blank (State.resetOf e) ∧ (State.resetOf e).engine = e) ∧
  ∀ s rest, s.script = .reset :: rest → ∃ t, step s = .next t ∧ blank t ∧ t.engine = s.engine

-- whole-machine rules

/-- No sequence of commands can make the engine stop accepting commands, and a command that fails while `ERR` is
already non-zero leaves every register, `ERR` with them, as it was (R261). -/
def Obligations.NoCommandStopsTheEngine : Prop :=
  (∀ k s, (∀ ev ∈ s.script, ev.onBus s.cfg = true) → Safe k s) ∧
  (∀ s q rest t r, s.script = .command q :: rest → step s = .next t → t.resp = some r → r.code ≠ .ok →
    s.ERR ≠ .ok → t = { s with script := rest, din := q.din, resp := errResp r.code })

/-- Every step keeps a state well formed: registers in the instance's shape with cells `NBITS` wide, `ERR` and the
response holding codes that are produced (R21, R23, R25, R28). -/
def Obligations.StepKeepsWellFormed : Prop :=
  ∀ s t, s.wf = true → step s = .next t → t.wf = true

/-- The reset state of every engine is well formed (R32). -/
def Obligations.ResetIsWellFormed : Prop :=
  ∀ e : Engine, (State.resetOf e).wf = true

/-- No command, and no other event, changes the configuration (R7, R41). -/
def Obligations.StepKeepsTheConfiguration : Prop :=
  ∀ s t, step s = .next t → t.engine = s.engine

/-- A command that raises an error, an illegal word among them, writes no register and no valid bit, responds
`(E, 0)`, and records the error if it is the first (R256). -/
def Obligations.FailingCommandHasNoEffect : Prop :=
  (∀ s q rest t r, s.script = .command q :: rest → step s = .next t → t.resp = some r → r.code ≠ .ok →
    t = { s with
      script := rest
      din := q.din
      ERR := if s.ERR = .ok then r.code else s.ERR
      resp := errResp r.code }) ∧
  ∀ i s t r, exec i s = .next t → t.resp = some r → r.code ≠ .ok →
    t = { s with ERR := if s.ERR = .ok then r.code else s.ERR, resp := errResp r.code }

/-- `ERR` after one command; `ERR` holds the first error since it was last 0, so that a host reading it once at the
end of a sequence learns whether every command succeeded; and `ERR` never alters a command (R257). -/
def Obligations.ErrHoldsTheFirstError : Prop :=
  (∀ s q rest t r, s.script = .command q :: rest → step s = .next t → t.resp = some r →
    t.ERR = if r.code ≠ .ok then (if s.ERR = .ok then r.code else s.ERR)
      else if decode q.cmd = .ok .clrerr then .ok else s.ERR) ∧
  (∀ k s t, Sys2Proof.core.run k s = .next t → s.ERR = .ok →
    (∀ ev ∈ s.script.take k, clearsErr ev = false) →
    t.ERR = firstError (runCodes k s) ∧ (t.ERR = .ok ↔ ∀ e ∈ runCodes k s, e = .ok)) ∧
  (∀ i s t e, exec i s = .next t →
    ∃ u, exec i { s with ERR := e } = .next u ∧ { u with ERR := .ok } = { t with ERR := .ok })

/-- The complete error table: on every state every command completes with the code R263 gives it, and `E_ILLCMD`
from a non-zero operand byte belongs to the format-`N` commands, whatever the registers hold, and to no other
(R263, priority of R258). -/
def Obligations.EveryCommandReportsItsTableCode : Prop :=
  (∀ i s, ∃ t dout, exec i s = .next t ∧ t.resp = some { code := codeOn s i, dout := dout }) ∧
  (∀ i (ii : Idx), ii ≠ 0 →
    (takesIdx i = false → ∀ s q rest, s.script = .command q :: rest → q.onBus s.cfg = true →
      opcodeField q.cmd = opcodeOf i → idxField q.cmd = ii → ∃ t, step s = .next t ∧ t.resp = errResp .illcmd) ∧
    (takesIdx i = true → ∃ i', decode (opcodeOf i ++ ii) = .ok i' ∧ opcodeOf i' = opcodeOf i))

/-- The frame of every command: configuration and ports' inputs are unchanged; `S`, `RK` and `TK` are unchanged but
for the commands R34 lists as writing or invalidating them; `dout` is 0 but for the three reads (R34, R45). -/
def Obligations.CommandsWriteOnlyWhatTheTableSays : Prop :=
  ∀ i s t, exec i s = .next t →
    t.engine = s.engine ∧ t.script = s.script ∧ t.din = s.din ∧
    (writesS i = false → t.S = s.S) ∧ (writesRK i = false → t.RK = s.RK) ∧ (writesTK i = false → t.TK = s.TK) ∧
    (i ≠ .rds → (∀ r, i ≠ .rdrk r) → (∀ j, i ≠ .rdtk j) → ∀ r, t.resp = some r → r.dout = 0)

/-- With an event presented, a step depends neither on the response of the step before nor on the value that was on
`din`: request and response are not state (R33). -/
def Obligations.StepIgnoresEarlierPortValues : Prop :=
  ∀ s ev rest d r, s.script = ev :: rest → step { s with din := d, resp := r } = step s

/-- Priority: after reset `RNDF 7` reports `E_RANGE` although `S` is empty, and `SUB` with `idx = 1` reports
`E_ILLCMD` (R258's examples, on `TA`). -/
def Obligations.PriorityExamplesAfterReset : Prop :=
  step ((State.resetOf engineTA).withFetchWord 16 0x3107) =
      .next { State.resetOf engineTA with ERR := .range, resp := errResp .range } ∧
    step ((State.resetOf engineTA).withFetchWord 16 0x2001) =
      .next { State.resetOf engineTA with ERR := .illcmd, resp := errResp .illcmd }

-- control (46_control.md)

/-- `NOP`: the word `0x0000`; it changes no state, not even `ERR`, and responds `(0, 0)`; the words `0x0001` to
`0x00FF` are reserved and raise `E_ILLCMD` (R240). -/
def Obligations.NopChangesNothing : Prop :=
  decode 0x0000 = .ok .nop ∧ (∀ s, exec .nop s = .next { s with resp := okResp 0 }) ∧
    ∀ s q rest, s.script = .command q :: rest → q.onBus s.cfg = true →
      0x0001 ≤ q.cmd.toNat → q.cmd.toNat ≤ 0x00FF →
      step s = .next { s with
        script := rest
        din := q.din
        ERR := if s.ERR = .ok then .illcmd else s.ERR
        resp := errResp .illcmd }

/-- `CLRERR`: the word `0x0100`; `ERR` becomes 0 and nothing else changes; with a non-zero operand byte the illegal
command's own code is recorded by the usual rule and nothing is cleared (R241). -/
def Obligations.ClrerrClearsErrAlone : Prop :=
  decode 0x0100 = .ok .clrerr ∧ (∀ s, exec .clrerr s = .next { s with ERR := .ok, resp := okResp 0 }) ∧
    ∀ s q rest, s.script = .command q :: rest → q.onBus s.cfg = true →
      0x0101 ≤ q.cmd.toNat → q.cmd.toNat ≤ 0x01FF →
      step s = .next { s with
        script := rest
        din := q.din
        ERR := if s.ERR = .ok then .illcmd else s.ERR
        resp := errResp .illcmd }

/-- `CLR`: the word `0x0200`; every valid bit is cleared and `ERR` is not changed, so that the registers are exactly
as after reset; with a non-zero operand byte the word raises `E_ILLCMD` and clears nothing (R242). -/
def Obligations.ClrDiscardsEveryRegister : Prop :=
  decode 0x0200 = .ok .clr ∧
    (∀ s, exec .clr s = .next { State.resetOf s.engine with
      ERR := s.ERR, script := s.script, din := s.din, resp := okResp 0 }) ∧
    ∀ s q rest, s.script = .command q :: rest → q.onBus s.cfg = true →
      0x0201 ≤ q.cmd.toNat → q.cmd.toNat ≤ 0x02FF →
      step s = .next { s with
        script := rest
        din := q.din
        ERR := if s.ERR = .ok then .illcmd else s.ERR
        resp := errResp .illcmd }

-- data movement (45_data_movement.md)

/-- `LDS`, `LDRK r` and `LDTK j` write the low `W` bits of `din`, cell 0 most significant, into their target alone
and set its valid bit; an index outside the file raises `E_RANGE` (R221, R223, R225). -/
def Obligations.LoadsWriteTheDataIn : Prop :=
  (∀ s, exec .lds s = .next { s with S := some (intToCells s.din s.cfg.ncells s.cfg.nbits), resp := okResp 0 }) ∧
  (∀ s (r : Idx), s.RK.length = s.cfg.nrounds → r.toNat < s.cfg.nrounds →
    ∃ t, exec (.ldrk r) s = .next t ∧ t = { s with RK := t.RK, resp := okResp 0 } ∧
      t.RK.length = s.RK.length ∧
      ∀ i, t.rkVal i = if i = r.toNat then some (intToCells s.din s.cfg.ncells s.cfg.nbits) else s.rkVal i) ∧
  (∀ s (j : Idx), j.toNat < 4 →
    ∃ t, exec (.ldtk j) s = .next t ∧ t = { s with TK := t.TK, resp := okResp 0 } ∧
      ∀ i, t.tkVal i = if i = j.toNat then some (intToCells s.din s.cfg.ncells s.cfg.nbits) else s.tkVal i) ∧
  (∀ s (r : Idx), s.cfg.nrounds ≤ r.toNat → exec (.ldrk r) s = .next (s.raise .range)) ∧
  (∀ s (j : Idx), 4 ≤ j.toNat → exec (.ldtk j) s = .next (s.raise .range))

/-- `RDS`, `RDRK r` and `RDTK j` answer the integer of their register and change nothing (R222, R224, R226). -/
def Obligations.ReadsAnswerTheRegister : Prop :=
  (∀ s x, s.S = some x → exec .rds s = .next { s with resp := okResp (cellsToInt x s.cfg.nbits) }) ∧
  (∀ s (r : Idx) k, r.toNat < s.cfg.nrounds → s.rkVal r.toNat = some k →
    exec (.rdrk r) s = .next { s with resp := okResp (cellsToInt k s.cfg.nbits) }) ∧
  (∀ s (j : Idx) k, j.toNat < 4 → s.tkVal j.toNat = some k →
    exec (.rdtk j) s = .next { s with resp := okResp (cellsToInt k s.cfg.nbits) })

/-- A load followed by the read of the same register answers `din mod 2^W` (R221 to R226, R82). -/
def Obligations.LoadThenReadTruncates : Prop :=
  (∀ s, ∃ t u, exec .lds s = .next t ∧ exec .rds t = .next u ∧ u.resp = okResp (s.din % 2 ^ s.cfg.W)) ∧
  (∀ s (r : Idx), s.RK.length = s.cfg.nrounds → r.toNat < s.cfg.nrounds →
    ∃ t u, exec (.ldrk r) s = .next t ∧ exec (.rdrk r) t = .next u ∧ u.resp = okResp (s.din % 2 ^ s.cfg.W)) ∧
  (∀ s (j : Idx), j.toNat < 4 →
    ∃ t u, exec (.ldtk j) s = .next t ∧ exec (.rdtk j) t = .next u ∧ u.resp = okResp (s.din % 2 ^ s.cfg.W))

-- single layers (41_field_ops.md)

/-- `SUB` looks every cell up in `SBOX`; `SUBI` leaves in every cell the value that `SBOX` takes to the old one
(R110, R111, R108). -/
def Obligations.SubstitutionCommands : Prop :=
  (∀ s x, s.S = some x →
    exec .sub s = .next { s with S := some (x.map fun v => s.cfg.sbox.getD v 0), resp := okResp 0 }) ∧
  (∀ s x, s.S = some x → blockFits s.cfg x = true →
    ∃ y, exec .subi s = .next { s with S := some y, resp := okResp 0 } ∧ blockFits s.cfg y = true ∧
      y.map (fun v => s.cfg.sbox.getD v 0) = x)

/-- `PRM` takes cell `i` from position `PBOX[i]` and `PRMI` from position `PBOX_INV[i]`, and each undoes the other
(R112, R113). -/
def Obligations.PermutationCommands : Prop :=
  (∀ s x, s.S = some x →
    exec .prm s = .next { s with S := some (s.cfg.pbox.map fun p => x.getD p 0), resp := okResp 0 } ∧
    exec .prmi s = .next { s with S := some (s.cfg.pboxInv.map fun p => x.getD p 0), resp := okResp 0 }) ∧
  (∀ s x, s.S = some x → blockFits s.cfg x = true →
    execAll [.prm, .prmi] s = .next { s with resp := okResp 0 } ∧
    execAll [.prmi, .prm] s = .next { s with resp := okResp 0 })

/-- `MMUL` and `MMULI` compute R106's double loop with `M` and with `M_INV` (R114, R115). -/
def Obligations.MatrixCommands : Prop :=
  ∀ s x, s.S = some x → blockFits s.cfg x = true →
    let product (matrix : List (List Cell)) : Block :=
      (List.range s.cfg.ncells).map fun j =>
        (List.range s.cfg.ncells).foldl
          (fun acc i => acc ^^^ gfmul s.cfg ((matrix.getD j []).getD i 0) (x.getD i 0)) 0
    exec .mmul s = .next { s with S := some (product s.cfg.m), resp := okResp 0 } ∧
    exec .mmuli s = .next { s with S := some (product s.cfg.mInv), resp := okResp 0 }

/-- `ADDRK r`, `ADDTK j` and `ADDD` XOR a round key, a sub-key or the low `W` bits of `din` into `S`, cell by cell;
each of them twice restores `S` (R116 to R118). -/
def Obligations.AdditionCommands : Prop :=
  (∀ s (r : Idx) x k, r.toNat < s.cfg.nrounds → s.S = some x → s.rkVal r.toNat = some k →
    exec (.addrk r) s = .next { s with S := some (List.zipWith (· ^^^ ·) x k), resp := okResp 0 } ∧
    (x.length = k.length → execAll [.addrk r, .addrk r] s = .next { s with resp := okResp 0 })) ∧
  (∀ s (j : Idx) x k, j.toNat < 4 → s.S = some x → s.tkVal j.toNat = some k →
    exec (.addtk j) s = .next { s with S := some (List.zipWith (· ^^^ ·) x k), resp := okResp 0 } ∧
    (x.length = k.length → execAll [.addtk j, .addtk j] s = .next { s with resp := okResp 0 })) ∧
  (∀ s x, s.S = some x →
    exec .addd s = .next { s with
      S := some (List.zipWith (· ^^^ ·) x (intToCells s.din s.cfg.ncells s.cfg.nbits))
      resp := okResp 0 } ∧
    (x.length = s.cfg.ncells → execAll [.addd, .addd] s = .next { s with resp := okResp 0 }))

-- the codec and the field (40_cellcodec.md, 41_field_ops.md)

/-- The conversion inverse law (R82). -/
def Obligations.CodecInverseLaw : Prop :=
  (∀ v n b, 1 ≤ b → v < 2 ^ (n * b) → cellsToInt (intToCells v n b) b = v) ∧
  (∀ v n b, 1 ≤ b → cellsToInt (intToCells v n b) b = v % 2 ^ (n * b)) ∧
  (∀ (x : Block) b, 1 ≤ b → (∀ v ∈ x, v < 2 ^ b) → intToCells (cellsToInt x b) x.length b = x)

/-- `rotateLeft` moves bit `k` of the low `width` bits to bit `(k + amount) mod width`, for an amount of any sign, and
gives a `width`-bit word (R86). -/
def Obligations.RotateLeftMovesEveryBit : Prop :=
  ∀ (v w : Nat) (a : Int), 1 ≤ w →
    rotateLeft v w a < 2 ^ w ∧
    ∀ k < w, (rotateLeft v w a).testBit ((((k : Int) + a) % (w : Int)).toNat) = v.testBit k

/-- `add` is cell-wise XOR, associative, commutative and self-inverse, with the zero block as its identity; operands
of different lengths are a `ShapeError` (R105). -/
def Obligations.AddLaws : Prop :=
  (∀ (a b : Block) i, i < a.length → i < b.length → (add a b)[i]? = some (a.getD i 0 ^^^ b.getD i 0)) ∧
  (∀ a b c : Block, a.length = b.length → b.length = c.length → add (add a b) c = add a (add b c)) ∧
  (∀ a b : Block, a.length = b.length → add a b = add b a ∧ add (add a b) b = a) ∧
  (∀ a : Block, add a (List.replicate a.length 0) = a ∧ add a a = List.replicate a.length 0) ∧
  (∀ a b : Block, addChecked a b = if a.length = b.length then .ok (add a b) else .error .shapeError)

/-- `gfmul` is commutative, associative, distributes over XOR, has 1 as its identity and stays below `2^NBITS`, in
every engine (R101, R102). -/
def Obligations.FieldMultiplicationIsARing : Prop :=
  ∀ (e : Engine) (a b c : Cell), a < 2 ^ e.cfg.nbits → b < 2 ^ e.cfg.nbits → c < 2 ^ e.cfg.nbits →
    gfmul e.cfg a b < 2 ^ e.cfg.nbits ∧
    gfmul e.cfg a b = gfmul e.cfg b a ∧
    gfmul e.cfg (gfmul e.cfg a b) c = gfmul e.cfg a (gfmul e.cfg b c) ∧
    gfmul e.cfg a (b ^^^ c) = gfmul e.cfg a b ^^^ gfmul e.cfg a c ∧
    gfmul e.cfg 1 b = b ∧ gfmul e.cfg a 1 = a

/-- Because `POLY` is irreducible, `gfmul` has no zero divisors and every non-zero element has exactly one inverse
(R102). -/
def Obligations.FieldMultiplicationHasInverses : Prop :=
  ∀ e : Engine,
    (∀ a b, a < 2 ^ e.cfg.nbits → b < 2 ^ e.cfg.nbits → gfmul e.cfg a b = 0 → a = 0 ∨ b = 0) ∧
    (∀ a, 0 < a → a < 2 ^ e.cfg.nbits → ∃ b, (b < 2 ^ e.cfg.nbits ∧ gfmul e.cfg a b = 1) ∧
      ∀ b', b' < 2 ^ e.cfg.nbits → gfmul e.cfg a b' = 1 → b' = b)

/-- The inverse operations: each of the three with its inverse table, in both orders, and `add` with itself (R108). -/
def Obligations.InverseOperationsUndo : Prop :=
  ∀ (e : Engine) (x k : Block), blockFits e.cfg x = true → blockFits e.cfg k = true →
    substitute (substitute x e.cfg.sbox) (sboxInv e.cfg) = x ∧
    substitute (substitute x (sboxInv e.cfg)) e.cfg.sbox = x ∧
    permute (permute x e.cfg.pbox) e.cfg.pboxInv = x ∧
    permute (permute x e.cfg.pboxInv) e.cfg.pbox = x ∧
    matrixMultiply e.cfg (matrixMultiply e.cfg x e.cfg.m) e.cfg.mInv = x ∧
    matrixMultiply e.cfg (matrixMultiply e.cfg x e.cfg.mInv) e.cfg.m = x ∧
    add (add x k) k = x

/-- What a valid configuration has: `SBOX` takes each cell value exactly once, and the P-boxes undo each other (R9). -/
def Obligations.ValidConfigurationsHaveBijectiveTables : Prop :=
  ∀ c : Cfg, validateConfig c = .ok →
    (∀ v < 2 ^ c.nbits, ∃ u, (u < 2 ^ c.nbits ∧ c.sbox.getD u 0 = v) ∧
      ∀ u', u' < 2 ^ c.nbits → c.sbox.getD u' 0 = v → u' = u) ∧
    (∀ i < c.ncells, c.pboxInv.getD (c.pbox.getD i 0) 0 = i ∧ c.pbox.getD (c.pboxInv.getD i 0) 0 = i)

-- the SPN cipher (42_spn_cipher.md)

/-- `KSCH` writes chunk `r` of the master key, most significant first, to `RK[r]` and sets every `RKV[r]`; a wider
`din` raises `E_SIZE` (R140). -/
def Obligations.KschWritesTheChunks : Prop :=
  (∀ s, s.din >>> s.cfg.KW = 0 →
    ∃ t, exec .ksch s = .next t ∧ t = { s with RK := t.RK, resp := okResp 0 } ∧
      t.RK.length = s.cfg.nrounds ∧ t.pins.rkv = List.replicate s.cfg.nrounds true ∧
      ∀ r < s.cfg.nrounds, t.rkVal r = some (intToCells
        ((s.din >>> (s.cfg.W * (s.cfg.nrounds - 1 - r))) % 2 ^ s.cfg.W) s.cfg.ncells s.cfg.nbits)) ∧
  (∀ s, s.din >>> s.cfg.KW ≠ 0 → exec .ksch s = .next (s.raise .size))

/-- The key schedule is the same as cutting `intToCells(masterKey, NROUNDS*NCELLS, NBITS)` into consecutive groups of
`NCELLS` cells (R133). -/
def Obligations.KeyScheduleCutsTheMasterKey : Prop :=
  ∀ (e : Engine) (mk : Nat),
    (keySchedule e.cfg mk).length = e.cfg.nrounds ∧
    (∀ k ∈ keySchedule e.cfg mk, k.length = e.cfg.ncells) ∧
    (keySchedule e.cfg mk).flatten = intToCells mk (e.cfg.nrounds * e.cfg.ncells) e.cfg.nbits

/-- `RNDF r`, `RNDI r`, `RNDFT j` and `RNDIT j` apply one forward or inverse round with the named key to `S` (R141,
R142, R182, R183). -/
def Obligations.RoundCommands : Prop :=
  (∀ s (r : Idx) x k, r.toNat < s.cfg.nrounds → s.S = some x → s.rkVal r.toNat = some k →
    exec (.rndf r) s = .next { s with S := some (forwardRound s.cfg x k), resp := okResp 0 } ∧
    exec (.rndi r) s = .next { s with S := some (inverseRound s.cfg x k), resp := okResp 0 }) ∧
  (∀ s (j : Idx) x k, j.toNat < 4 → s.S = some x → s.tkVal j.toNat = some k →
    exec (.rndft j) s = .next { s with S := some (forwardRound s.cfg x k), resp := okResp 0 } ∧
    exec (.rndit j) s = .next { s with S := some (inverseRound s.cfg x k), resp := okResp 0 })

/-- `ENC` and `ENCR n` apply forward rounds with `RK[0]` upward, `DEC` and `DECR n` inverse rounds downward to `RK[0]`,
with exactly the keys they need (R143 to R146). -/
def Obligations.CipherCommands : Prop :=
  (∀ s x ks, s.S = some x → HoldsRoundKeys s s.cfg.nrounds ks →
    exec .enc s = .next { s with S := some (ks.foldl (forwardRound s.cfg) x), resp := okResp 0 } ∧
    exec .dec s = .next { s with S := some (ks.foldr (fun k y => inverseRound s.cfg y k) x), resp := okResp 0 }) ∧
  (∀ s (n : Idx) x ks, n.toNat ≤ s.cfg.nrounds → s.S = some x → HoldsRoundKeys s n.toNat ks →
    exec (.encr n) s = .next { s with S := some (ks.foldl (forwardRound s.cfg) x), resp := okResp 0 } ∧
    exec (.decr n) s = .next { s with S := some (ks.foldr (fun k y => inverseRound s.cfg y k) x), resp := okResp 0 })

/-- A round command equals its sequence of single layers, in the order the configuration names, the matrix step left
out where the round has none (R71). -/
def Obligations.RoundsEqualTheirLayers : Prop :=
  ∀ s (r : Idx) x k, r.toNat < s.cfg.nrounds → s.S = some x → s.rkVal r.toNat = some k →
    let mix : List Instr := if s.cfg.diffusionInRound then [.mmul] else []
    let unmix : List Instr := if s.cfg.diffusionInRound then [.mmuli] else []
    (s.cfg.roundOrder = .sap →
      SameFinalState (exec (.rndf r) s) (execAll ([.sub, .addrk r, .prm] ++ mix) s) ∧
      SameFinalState (exec (.rndi r) s) (execAll (unmix ++ [.prmi, .addrk r, .subi]) s)) ∧
    (s.cfg.roundOrder = .asp →
      SameFinalState (exec (.rndf r) s) (execAll ([.addrk r, .sub, .prm] ++ mix) s) ∧
      SameFinalState (exec (.rndi r) s) (execAll (unmix ++ [.prmi, .subi, .addrk r]) s))

/-- The multi-round commands equal their sequences of round commands, each with just the round keys it needs, `MID`
its three layers, and `RENC` its whole sequence of single steps (R71). -/
def Obligations.CiphersEqualTheirRounds : Prop :=
  let up (n : Nat) : List Instr := (List.range n).map fun r => .rndf (BitVec.ofNat 8 r)
  let down (n : Nat) : List Instr := ((List.range n).map fun r => .rndi (BitVec.ofNat 8 r)).reverse
  (∀ s x ks, s.S = some x → HoldsRoundKeys s s.cfg.nrounds ks →
    SameFinalState (exec .enc s) (execAll (up s.cfg.nrounds) s) ∧
    SameFinalState (exec .dec s) (execAll (down s.cfg.nrounds) s)) ∧
  (∀ s (n : Idx) x ks, n.toNat ≤ s.cfg.nrounds → s.S = some x → HoldsRoundKeys s n.toNat ks →
    SameFinalState (exec (.encr n) s) (execAll (up n.toNat) s) ∧
    SameFinalState (exec (.decr n) s) (execAll (down n.toNat) s)) ∧
  (∀ s x, s.S = some x → SameFinalState (exec .mid s) (execAll [.sub, .mmul, .sub] s)) ∧
  (∀ s x t, s.S = some x → HoldsTuple s t →
    SameFinalState (exec .renc s)
      (execAll ([.addtk 0, .addtk 1] ++ List.replicate s.cfg.rhalf (.rndft 1) ++ [.mid] ++
        List.replicate s.cfg.rhalf (.rndit 3) ++ [.addtk 3, .addtk 2]) s))

/-- The two rounds are mutually inverse, in every engine, for every block and every round key (R132). -/
def Obligations.RoundsAreMutuallyInverse : Prop :=
  ∀ (e : Engine) (x k : Block), blockFits e.cfg x = true → blockFits e.cfg k = true →
    inverseRound e.cfg (forwardRound e.cfg x k) k = x ∧ forwardRound e.cfg (inverseRound e.cfg x k) k = x

/-- The correctness contract: decryption undoes encryption and encryption decryption, for every block and key that
pass the size checks, in either representation, whatever the round order and the diffusion step; and engines with
identical configurations answer alike (R136). -/
def Obligations.DecryptInvertsEncrypt : Prop :=
  (∀ (e : Engine) (p : BlockArg) (x : Block) (key : Nat), p.toBlock e.cfg = .ok x → key < 2 ^ e.cfg.KW →
    (∃ y, encrypt e.cfg p key = .ok y ∧ decrypt e.cfg y key = .ok p) ∧
    (∃ y, decrypt e.cfg p key = .ok y ∧ encrypt e.cfg y key = .ok p)) ∧
  (∀ (e e' : Engine) script k, e.cfg = e'.cfg →
    Sys2Proof.core.run k { State.resetOf e with script := script } =
      Sys2Proof.core.run k { State.resetOf e' with script := script })

/-- On the machine: `ENC ; DEC`, `DEC ; ENC`, `ENCR n ; DECR n` and `RNDF r ; RNDI r` restore `S` and leave everything
else as it was (R142 to R146). -/
def Obligations.SpnCommandsRoundTrip : Prop :=
  ∀ s x, s.wf = true → s.S = some x →
    ((∀ r < s.cfg.nrounds, s.RKV r = true) →
      execAll [.enc, .dec] s = .next { s with resp := okResp 0 } ∧
      execAll [.dec, .enc] s = .next { s with resp := okResp 0 }) ∧
    (∀ n : Idx, n.toNat ≤ s.cfg.nrounds → (∀ r < n.toNat, s.RKV r = true) →
      execAll [.encr n, .decr n] s = .next { s with resp := okResp 0 }) ∧
    (∀ r : Idx, r.toNat < s.cfg.nrounds → s.RKV r.toNat = true →
      execAll [.rndf r, .rndi r] s = .next { s with resp := okResp 0 } ∧
      execAll [.rndi r, .rndf r] s = .next { s with resp := okResp 0 })

-- the reflector cipher (43_reflector.md)

/-- `RKSCH` writes the cells of the four sub-keys of `ReflectorSubkeyBits` and sets every `TKV[j]`, a wider `din` raising `E_SIZE`; `RKSWP` exchanges `k0`
with `k0p` and `k1` with `k1a` (R180, R181). -/
def Obligations.ReflectorKeyCommands : Prop :=
  (∀ s, s.din >>> s.cfg.TKW = 0 →
    let t := reflectorSubkeys s.cfg s.din
    exec .rksch s = .next { s with
      TK := {
        k0 := some (intToCells t.k0 s.cfg.ncells s.cfg.nbits)
        k1 := some (intToCells t.k1 s.cfg.ncells s.cfg.nbits)
        k0p := some (intToCells t.k0p s.cfg.ncells s.cfg.nbits)
        k1a := some (intToCells t.k1a s.cfg.ncells s.cfg.nbits) }
      resp := okResp 0 }) ∧
  (∀ s, s.din >>> s.cfg.TKW ≠ 0 → exec .rksch s = .next (s.raise .size)) ∧
  (∀ s t, HoldsTuple s t →
    exec .rkswp s = .next { s with
      TK := { k0 := some t.k0p, k1 := some t.k1a, k0p := some t.k0, k1a := some t.k1 }
      resp := okResp 0 } ∧
    execAll [.rkswp, .rkswp] s = .next { s with resp := okResp 0 })

/-- The reflector key schedule bit by bit: the two halves, `k0p` as `k0` rotated right by one with the old top bit
XORed into bit 0, and `k1a = k1 XOR ALPHA` (R171). -/
def Obligations.ReflectorSubkeyBits : Prop :=
  ∀ (e : Engine) (mk : Nat), mk < 2 ^ e.cfg.TKW →
    let t := reflectorSubkeys e.cfg mk
    t.k0 = mk / 2 ^ e.cfg.W ∧ t.k1 = mk % 2 ^ e.cfg.W ∧ t.k1a = t.k1 ^^^ e.cfg.alpha ∧
    t.k0p < 2 ^ e.cfg.W ∧ t.k1a < 2 ^ e.cfg.W ∧
    (e.cfg.W = 1 → t.k0p = 0) ∧
    (2 ≤ e.cfg.W →
      t.k0p.testBit (e.cfg.W - 1) = t.k0.testBit 0 ∧
      (∀ i, 1 ≤ i → i ≤ e.cfg.W - 2 → t.k0p.testBit i = t.k0.testBit (i + 1)) ∧
      t.k0p.testBit 0 = (t.k0.testBit 1 ^^ t.k0.testBit (e.cfg.W - 1)))

/-- `MID`, `RENC` and `RDEC` transform `S` by the middle layer, by encryption under the tuple in `TK` and by encryption
under the relabelled tuple, and leave `TK` as it is (R184 to R186). -/
def Obligations.ReflectorCommands : Prop :=
  (∀ s x, s.S = some x → exec .mid s = .next { s with S := some (middleLayer s.cfg x), resp := okResp 0 }) ∧
  (∀ s x t, s.S = some x → HoldsTuple s t →
    exec .renc s = .next { s with S := some (reflectorEncryptT s.cfg x t), resp := okResp 0 } ∧
    exec .rdec s = .next { s with
      S := some (reflectorEncryptT s.cfg x { k0 := t.k0p, k1 := t.k1a, k0p := t.k0, k1a := t.k1 })
      resp := okResp 0 })

/-- `RDEC` has the same effect as `RKSWP ; RENC ; RKSWP`, and on `S` the same as `RKSWP ; RENC` (R179, R186). -/
def Obligations.RdecIsRelabelledRenc : Prop :=
  ∀ s x t, s.S = some x → HoldsTuple s t →
    SameFinalState (exec .rdec s) (execAll [.rkswp, .renc, .rkswp] s) ∧
    ∃ u v, exec .rdec s = .next u ∧ execAll [.rkswp, .renc] s = .next v ∧ u.S = v.S

/-- `relabel` exchanges the pairs, decryption is encryption under the relabelled tuple, `relabel` is an involution, and
its result is in general the key schedule of no master key: on `TA`, the tuple of `0x8F0112AB` relabelled is none
(R174). -/
def Obligations.RelabelIsAnInvolution : Prop :=
  (∀ a b c d : Block, relabel { k0 := a, k1 := b, k0p := c, k1a := d } = { k0 := c, k1 := d, k0p := a, k1a := b }) ∧
  (∀ (c : Cfg) (x k0 k1 k0p k1a : Block),
    reflectorDecryptT c x { k0 := k0, k1 := k1, k0p := k0p, k1a := k1a } =
      reflectorEncryptT c x { k0 := k0p, k1 := k1a, k0p := k0, k1a := k1 }) ∧
  (∀ t : KeyTuple Block, relabel (relabel t) = t) ∧
  (∀ mk, mk < 2 ^ cfgTA.TKW →
    reflectorKeySchedule cfgTA mk ≠ relabel (reflectorKeySchedule cfgTA 0x8F0112AB))

/-- If `SBOX` is involutive and `M` self-inverse, the middle layer is an involution (R176). -/
def Obligations.MiddleLayerIsAnInvolution : Prop :=
  ∀ (e : Engine) (x : Block), involutiveSbox e.cfg = true → selfInverseMatrix e.cfg = true →
    blockFits e.cfg x = true → middleLayer e.cfg (middleLayer e.cfg x) = x

/-- `RHALF` inverse rounds with a key undo `RHALF` forward rounds with the same key, in every engine (R177). -/
def Obligations.HalfRoundsCancel : Prop :=
  ∀ (e : Engine) (x k : Block), blockFits e.cfg x = true → blockFits e.cfg k = true →
    inverseHalf e.cfg k e.cfg.rhalf (forwardHalf e.cfg k e.cfg.rhalf x) = x

/-- The reflector contract: with P1 and P2, decryption undoes encryption and encryption decryption for every block and
every tuple; without P1 it fails in general, as on `TB` (R178). -/
def Obligations.ReflectorDecryptInvertsEncrypt : Prop :=
  (∀ (e : Engine) (x : Block) (t : KeyTuple Block),
    involutiveSbox e.cfg = true → selfInverseMatrix e.cfg = true →
    blockFits e.cfg x = true → tupleFits e.cfg t = true →
    reflectorDecryptT e.cfg (reflectorEncryptT e.cfg x t) t = x ∧
    reflectorEncryptT e.cfg (reflectorDecryptT e.cfg x t) t = x) ∧
  (validateConfig cfgTB = .ok ∧ involutiveSbox cfgTB = false ∧
    let t := reflectorKeySchedule cfgTB 0x5AC3
    reflectorDecryptT cfgTB (reflectorEncryptT cfgTB [3, 9] t) t = [6, 0xD])

/-- On the machine: with P1 and P2, `RENC ; RDEC`, `RDEC ; RENC` and `MID ; MID` restore `S` and leave everything else as
it was (R184, R186). -/
def Obligations.ReflectorCommandsRoundTrip : Prop :=
  ∀ s x, s.wf = true → s.S = some x → involutiveSbox s.cfg = true → selfInverseMatrix s.cfg = true →
    execAll [.mid, .mid] s = .next { s with resp := okResp 0 } ∧
    ((∀ j < 4, s.TKV j = true) →
      execAll [.renc, .rdec] s = .next { s with resp := okResp 0 } ∧
      execAll [.rdec, .renc] s = .next { s with resp := okResp 0 })

-- the engine realises the document's functions (30_encoding.md R70)

/-- `ENCRYPT p, k` and `DECRYPT p, k` presented to the engine, whatever its registers hold, return what the function
layer's `encrypt` and `decrypt` return (R70, R134, R135). -/
def Obligations.SpnMacrosRealiseTheFunctions : Prop :=
  ∀ s p k, p < 2 ^ s.cfg.W → k < 2 ^ s.cfg.KW →
    (∃ v, encrypt s.cfg (.int p) k = .ok (.int v) ∧ runMacro s 0 (macroEncrypt p k) = .value v) ∧
    (∃ v, decrypt s.cfg (.int p) k = .ok (.int v) ∧ runMacro s 0 (macroDecrypt p k) = .value v)

/-- `RENCRYPT`, `RDECRYPT` and `RDECRYPT2` return what the reflector's `encrypt` and `decrypt` return, the last two alike
(R70, R173, R175). -/
def Obligations.ReflectorMacrosRealiseTheFunctions : Prop :=
  ∀ s p k, p < 2 ^ s.cfg.W → k < 2 ^ s.cfg.TKW →
    (∃ v, reflectorEncrypt s.cfg (.int p) k = .ok (.int v) ∧ runMacro s 0 (macroREncrypt p k) = .value v) ∧
    (∃ v, reflectorDecrypt s.cfg (.int p) k = .ok (.int v) ∧ runMacro s 0 (macroRDecrypt p k) = .value v ∧
      runMacro s 0 (macroRDecrypt2 p k) = .value v)

/-- `ENCROUNDS` and `DECROUNDS` return the partial-round functions of the supplied keys (R70, R137, R138). -/
def Obligations.PartialRoundMacrosRealiseTheFunctions : Prop :=
  ∀ s p ks, s.RK.length = s.cfg.nrounds → ks.length ≤ s.cfg.nrounds → p < 2 ^ s.cfg.W →
    (∀ k ∈ ks, k < 2 ^ s.cfg.W) →
    let x := intToCells p s.cfg.ncells s.cfg.nbits
    let keys := ks.map fun k => intToCells k s.cfg.ncells s.cfg.nbits
    runMacro s 0 (macroEncRounds p ks) =
      .value (cellsToInt (encryptRounds s.cfg x keys ks.length) s.cfg.nbits) ∧
    runMacro s 0 (macroDecRounds p ks) =
      .value (cellsToInt (decryptRounds s.cfg x keys ks.length) s.cfg.nbits)

-- host side (44_enumerator_and_search.md)

/-- The enumerator, whatever order its positions are listed in: it produces exactly `2^k` distinct words of its width;
in item `t` every position not listed holds the fixed value, and a listed position holds the fixed value XOR the bit of
the counter `t` whose number is how many listed positions lie above it, so that the counter's most significant bit is
at the lowest-numbered one; position `p` is bit `width - 1 - p` (R200, R201, host side). -/
def Obligations.EnumeratorCoversItsPositions : Prop :=
  ∀ en : Enumerator, (∀ p ∈ en.positions, p < en.width) →
    let listed := en.positions.dedup
    en.items.length = 2 ^ listed.length ∧ en.items.Nodup ∧ (∀ v ∈ en.items, v < 2 ^ en.width) ∧
    ∀ t < 2 ^ listed.length, ∃ v, en.items[t]? = some v ∧
      (∀ p < en.width, p ∉ en.positions → v.testBit (en.width - 1 - p) = en.fixedOne) ∧
      ∀ p ∈ en.positions, v.testBit (en.width - 1 - p) =
        (en.fixedOne ^^ t.testBit (listed.filter fun q => decide (p < q)).length)
end

