-- ==== Sys2Proof/Laws/Blocks.lean ====
section
/-! SUPPORT. What validity gives (spec/00_scope.md R9), and that every operation of the function layer keeps a
block in the instance's shape (spec/10_state.md R21, spec/41_field_ops.md R107). -/

namespace Sys2Proof.Machine

-- validity, part by part

theorem Engine.tablesOk (e : Engine) : tablesOk e.cfg = true := by
  have h := e.valid
  unfold validateConfig at h
  split at h
  · cases h
  · split at h
    · assumption
    · cases h

theorem Engine.sizes (e : Engine) : sizesOk e.cfg = true := by
  have h := e.tablesOk; simp only [Machine.tablesOk, Bool.and_eq_true] at h; exact h.1.1.1.1.1.1.1.1

theorem Engine.sboxPerm (e : Engine) : isPermutation (2 ^ e.cfg.nbits) e.cfg.sbox = true := by
  have h := e.tablesOk; simp only [Machine.tablesOk, Bool.and_eq_true] at h; exact h.1.1.1.1.1.1.1.2

theorem Engine.pboxPerm (e : Engine) : isPermutation e.cfg.ncells e.cfg.pbox = true := by
  have h := e.tablesOk; simp only [Machine.tablesOk, Bool.and_eq_true] at h; exact h.1.1.1.1.1.1.2

theorem Engine.pboxInvPerm (e : Engine) : isPermutation e.cfg.ncells e.cfg.pboxInv = true := by
  have h := e.tablesOk; simp only [Machine.tablesOk, Bool.and_eq_true] at h; exact h.1.1.1.1.1.2

theorem Engine.mFits (e : Engine) : matrixFits e.cfg e.cfg.m = true := by
  have h := e.tablesOk; simp only [Machine.tablesOk, Bool.and_eq_true] at h; exact h.1.1.1.2

theorem Engine.mInvFits (e : Engine) : matrixFits e.cfg e.cfg.mInv = true := by
  have h := e.tablesOk; simp only [Machine.tablesOk, Bool.and_eq_true] at h; exact h.1.1.2

theorem Engine.polyIrreducible (e : Engine) : polyIrreducible e.cfg = true := by
  have h := e.tablesOk; simp only [Machine.tablesOk, Bool.and_eq_true] at h; exact h.1.2

theorem Engine.poly_degree (e : Engine) : e.cfg.poly.testBit e.cfg.nbits = true := by
  have h := e.polyIrreducible; simp only [Machine.polyIrreducible, Bool.and_eq_true] at h; exact h.1.1

theorem Engine.poly_lt (e : Engine) : e.cfg.poly < 2 ^ (e.cfg.nbits + 1) := by
  have h := e.polyIrreducible
  simp only [Machine.polyIrreducible, Bool.and_eq_true, decide_eq_true_eq] at h; exact h.1.2

theorem Engine.alpha_lt (e : Engine) : e.cfg.alpha < 2 ^ e.cfg.W := by
  have h := e.sizes; simp only [sizesOk, Bool.and_eq_true, decide_eq_true_eq] at h; exact h.2

/-- `W >= 1` (R9 V7). -/
theorem Engine.W_pos (e : Engine) : 0 < e.cfg.W := by
  have h := e.sizes
  simp only [sizesOk, Bool.and_eq_true, decide_eq_true_eq] at h
  exact Nat.mul_pos (by omega) (by omega)

/-- A permutation's entries are below its length (R9 V1, V2). -/
theorem isPermutation_getD_lt {n v : Nat} {t : List Nat} (h : isPermutation n t = true) (hv : v < n) :
    t.getD v 0 < n := by
  simp only [isPermutation, Bool.and_eq_true, beq_iff_eq, List.all_eq_true, decide_eq_true_eq] at h
  have hl : v < t.length := by omega
  simpa [List.getD, hl] using h.1.2 _ (List.getElem_mem hl)

-- shapes

theorem blockFits_iff {c : Cfg} {x : Block} :
    blockFits c x = true ↔ x.length = c.ncells ∧ ∀ v ∈ x, v < 2 ^ c.nbits := by
  simp [blockFits]

theorem intToCells_fits (c : Cfg) (v : Nat) : blockFits c (intToCells v c.ncells c.nbits) = true := by
  rw [blockFits_iff]
  refine ⟨by simp [intToCells], fun w hw => ?_⟩
  simp only [intToCells, List.mem_map] at hw
  obtain ⟨i, -, rfl⟩ := hw
  exact Nat.mod_lt _ (Nat.two_pow_pos _)

theorem add_fits {c : Cfg} {x k : Block} (hx : blockFits c x = true) (hk : blockFits c k = true) :
    blockFits c (add x k) = true := by
  rw [blockFits_iff] at *
  refine ⟨by simp [add, hx.1, hk.1], fun w hw => ?_⟩
  simp only [add] at hw
  obtain ⟨i, hi, rfl⟩ := List.getElem_of_mem hw
  simp only [List.getElem_zipWith, gfadd]
  exact Nat.xor_lt_two_pow (hx.2 _ (List.getElem_mem _)) (hk.2 _ (List.getElem_mem _))

/-- Substitution keeps the shape when every table entry is a cell (R103). -/
theorem substitute_fits {c : Cfg} {x : Block} {t : List Cell} (hx : blockFits c x = true)
    (ht : ∀ v < 2 ^ c.nbits, t.getD v 0 < 2 ^ c.nbits) : blockFits c (substitute x t) = true := by
  rw [blockFits_iff] at *
  refine ⟨by simp [substitute, hx.1], fun w hw => ?_⟩
  simp only [substitute, List.mem_map] at hw
  obtain ⟨v, hv, rfl⟩ := hw
  exact ht v (hx.2 v hv)

theorem sboxInv_getD_lt (e : Engine) {v : Nat} (hv : v < 2 ^ e.cfg.nbits) :
    (sboxInv e.cfg).getD v 0 < 2 ^ e.cfg.nbits := by
  have h := e.sboxPerm
  simp only [isPermutation, Bool.and_eq_true, beq_iff_eq, List.all_eq_true, List.mem_range,
    List.contains_iff_mem] at h
  have : e.cfg.sbox.idxOf v < e.cfg.sbox.length := List.idxOf_lt_length_of_mem (h.2 v hv)
  have hl := h.1.1
  simp [sboxInv, List.getD, hv]
  exact Nat.lt_of_lt_of_eq this hl

/-- Permutation keeps the shape when the table has one position per cell (R104). -/
theorem permute_fits {c : Cfg} {x : Block} {ps : List Nat} (hx : blockFits c x = true)
    (hp : isPermutation c.ncells ps = true) : blockFits c (permute x ps) = true := by
  rw [blockFits_iff] at *
  simp only [isPermutation, Bool.and_eq_true, beq_iff_eq, List.all_eq_true, decide_eq_true_eq] at hp
  refine ⟨by simp [permute, hp.1.1], fun w hw => ?_⟩
  simp only [permute, List.mem_map] at hw
  obtain ⟨p, hpm, rfl⟩ := hw
  have hl : p < x.length := by have := hp.1.2 p hpm; omega
  simpa [List.getD, hl] using hx.2 _ (List.getElem_mem hl)

-- the field multiply stays below 2^NBITS (R101)

theorem gfdouble_lt {n p t : Nat} (hp : p.testBit n = true) (hp' : p < 2 ^ (n + 1)) (ht : t < 2 ^ n) :
    gfdouble n p t < 2 ^ n := by
  have h1 : t <<< 1 < 2 ^ (n + 1) := by rw [Nat.shiftLeft_eq, Nat.pow_succ]; omega
  have below {a : Nat} (ha : a < 2 ^ (n + 1)) (hn : a.testBit n = false) : a < 2 ^ n := by
    refine Nat.lt_pow_two_of_testBit _ fun i hi => ?_
    rcases Nat.lt_or_ge n i with h | h
    · exact Nat.testBit_lt_two_pow (Nat.lt_of_lt_of_le ha (Nat.pow_le_pow_right (by omega) h))
    · rwa [Nat.le_antisymm h hi]
  unfold gfdouble
  split
  · rename_i h
    exact below (Nat.xor_lt_two_pow h1 hp') (by rw [Nat.testBit_xor, h, hp]; rfl)
  · rename_i h
    exact below h1 (by simpa using h)

theorem gfmul_lt (e : Engine) {a : Cell} (b : Cell) (ha : a < 2 ^ e.cfg.nbits) :
    gfmul e.cfg a b < 2 ^ e.cfg.nbits := by
  have key : ∀ (ks : List Nat) (rt : Nat × Nat), rt.1 < 2 ^ e.cfg.nbits → rt.2 < 2 ^ e.cfg.nbits →
      (ks.foldl (gfmulPass e.cfg.nbits e.cfg.poly b) rt).1 < 2 ^ e.cfg.nbits := by
    intro ks
    induction ks with
    | nil => intro rt h _; exact h
    | cons k ks ih =>
      intro rt hr ht
      refine ih _ ?_ (gfdouble_lt e.poly_degree e.poly_lt ht)
      simp only [gfmulPass]
      split
      · exact Nat.xor_lt_two_pow hr ht
      · exact hr
  exact key _ _ (Nat.two_pow_pos _) ha

theorem rowProduct_lt (e : Engine) {row : List Cell} (x : Block) (hrow : ∀ v ∈ row, v < 2 ^ e.cfg.nbits) :
    rowProduct e.cfg row x < 2 ^ e.cfg.nbits := by
  have key : ∀ (ps : List Nat) (a : Nat), a < 2 ^ e.cfg.nbits → (∀ p ∈ ps, p < 2 ^ e.cfg.nbits) →
      ps.foldl gfadd a < 2 ^ e.cfg.nbits := by
    intro ps
    induction ps with
    | nil => intro a h _; exact h
    | cons p ps ih =>
      intro a ha hp
      exact ih _ (Nat.xor_lt_two_pow ha (hp p (by simp))) fun q hq => hp q (by simp [hq])
  refine key _ _ (Nat.two_pow_pos _) fun p hp => ?_
  obtain ⟨i, hi, rfl⟩ := List.getElem_of_mem hp
  simp only [List.getElem_zipWith]
  exact gfmul_lt e _ (hrow _ (List.getElem_mem _))

theorem matrixMultiply_fits (e : Engine) (x : Block) {m : List (List Cell)}
    (hm : matrixFits e.cfg m = true) : blockFits e.cfg (matrixMultiply e.cfg x m) = true := by
  simp only [matrixFits, Bool.and_eq_true, beq_iff_eq, List.all_eq_true, decide_eq_true_eq] at hm
  rw [blockFits_iff]
  refine ⟨by simp [matrixMultiply, hm.1], fun w hw => ?_⟩
  simp only [matrixMultiply, List.mem_map] at hw
  obtain ⟨row, hrow, rfl⟩ := hw
  exact rowProduct_lt e x (hm.2 row hrow).2

-- rounds and half-rounds

theorem substituteSbox_fits (e : Engine) {x : Block} (hx : blockFits e.cfg x = true) :
    blockFits e.cfg (substitute x e.cfg.sbox) = true :=
  substitute_fits hx fun _ hv => isPermutation_getD_lt e.sboxPerm hv

theorem substituteSboxInv_fits (e : Engine) {x : Block} (hx : blockFits e.cfg x = true) :
    blockFits e.cfg (substitute x (sboxInv e.cfg)) = true :=
  substitute_fits hx fun _ hv => sboxInv_getD_lt e hv

theorem forwardRound_fits (e : Engine) {x k : Block} (hx : blockFits e.cfg x = true)
    (hk : blockFits e.cfg k = true) : blockFits e.cfg (forwardRound e.cfg x k) = true := by
  unfold forwardRound
  split <;> dsimp only <;> split
  · exact matrixMultiply_fits e _ e.mFits
  · exact permute_fits (add_fits (substituteSbox_fits e hx) hk) e.pboxPerm
  · exact matrixMultiply_fits e _ e.mFits
  · exact permute_fits (substituteSbox_fits e (add_fits hx hk)) e.pboxPerm

theorem inverseRound_fits (e : Engine) {x k : Block} (hx : blockFits e.cfg x = true)
    (hk : blockFits e.cfg k = true) : blockFits e.cfg (inverseRound e.cfg x k) = true := by
  have h : blockFits e.cfg (permute (if e.cfg.diffusionInRound then matrixMultiply e.cfg x e.cfg.mInv else x)
      e.cfg.pboxInv) = true := by
    refine permute_fits ?_ e.pboxInvPerm
    split
    · exact matrixMultiply_fits e _ e.mInvFits
    · exact hx
  unfold inverseRound
  dsimp only
  split
  · exact substituteSboxInv_fits e (add_fits h hk)
  · exact add_fits (substituteSboxInv_fits e h) hk

theorem middleLayer_fits (e : Engine) {x : Block} : blockFits e.cfg (middleLayer e.cfg x) = true :=
  substituteSbox_fits e (matrixMultiply_fits e _ e.mFits)

theorem forwardHalf_fits (e : Engine) {k : Block} (hk : blockFits e.cfg k = true) :
    ∀ (t : Nat) {x : Block}, blockFits e.cfg x = true → blockFits e.cfg (forwardHalf e.cfg k t x) = true
  | 0, _, hx => hx
  | t + 1, _, hx => forwardHalf_fits e hk t (forwardRound_fits e hx hk)

theorem inverseHalf_fits (e : Engine) {k : Block} (hk : blockFits e.cfg k = true) :
    ∀ (t : Nat) {x : Block}, blockFits e.cfg x = true → blockFits e.cfg (inverseHalf e.cfg k t x) = true
  | 0, _, hx => hx
  | t + 1, _, hx => inverseHalf_fits e hk t (inverseRound_fits e hx hk)

end Sys2Proof.Machine
end

