-- ==== Sys2Proof/Laws/Decode.lean ====
section
/-! SUPPORT. The two fields of a command word (spec/30_encoding.md R61): a word is its opcode byte over its operand
byte, and each field reads back. -/

namespace Sys2Proof.Laws

/-- Every word is its two fields, and nothing else. -/
theorem fields_append (w : CmdWord) : opcodeField w ++ idxField w = w := by
  unfold opcodeField idxField
  ext i hi
  simp only [BitVec.getElem_append, BitVec.getElem_extractLsb']
  split
  · simp [BitVec.getLsbD_eq_getElem hi]
  · rename_i h
    rw [Nat.add_sub_cancel' (by omega), BitVec.getLsbD_eq_getElem hi]

/-- The opcode field as a number. -/
theorem opcodeField_toNat (w : CmdWord) : (opcodeField w).toNat = w.toNat / 256 := by
  have h := w.isLt
  simp only [opcodeField, BitVec.extractLsb'_toNat, Nat.shiftRight_eq_div_pow]
  omega

/-- The operand field as a number. -/
theorem idxField_toNat (w : CmdWord) : (idxField w).toNat = w.toNat % 256 := by
  simp [idxField, BitVec.extractLsb'_toNat]

/-- The word of two bytes as a number. -/
theorem append_toNat (o ii : BitVec 8) : BitVec.toNat (w := 16) (o ++ ii) = o.toNat * 256 + ii.toNat := by
  have h := BitVec.toNat_append o ii
  rw [← Nat.shiftLeft_add_eq_or_of_lt ii.isLt, Nat.shiftLeft_eq] at h
  exact h

@[simp] theorem opcodeField_append (o ii : BitVec 8) : opcodeField (o ++ ii) = o := by
  have ho := o.isLt
  have hi := ii.isLt
  apply BitVec.eq_of_toNat_eq
  rw [opcodeField_toNat, append_toNat]
  omega

@[simp] theorem idxField_append (o ii : BitVec 8) : idxField (o ++ ii) = ii := by
  have ho := o.isLt
  have hi := ii.isLt
  apply BitVec.eq_of_toNat_eq
  rw [idxField_toNat, append_toNat]
  omega

end Sys2Proof.Laws
end

