-- ==== Sys2Proof/Laws/HostSide.lean ====
section
/-! SUPPORT. What the host-side reference's operations can do: the enumerator's positions as an ordered set, and the
bits of a spread counter (spec/44_enumerator_and_search.md R200, R201). -/

namespace Sys2Proof.Machine

/-- The ordered set holds what was listed, each position once. -/
theorem Enumerator.ascending_perm (e : Enumerator) : e.ascending.Perm e.positions.dedup :=
  List.perm_insertionSort _ _

/-- The lowest-numbered position comes first. -/
theorem Enumerator.ascending_pairwise (e : Enumerator) : e.ascending.Pairwise (· ≤ ·) :=
  List.pairwise_insertionSort _ _

@[simp] theorem Enumerator.mem_ascending {e : Enumerator} {p : Nat} : p ∈ e.ascending ↔ p ∈ e.positions := by
  rw [e.ascending_perm.mem_iff, List.mem_dedup]

@[simp] theorem Enumerator.length_ascending (e : Enumerator) : e.ascending.length = e.positions.dedup.length :=
  e.ascending_perm.length_eq

theorem Enumerator.nodup_ascending (e : Enumerator) : e.ascending.Nodup :=
  e.ascending_perm.nodup_iff.mpr (List.nodup_dedup _)

/-- A bit that no position names stays 0 in the spread counter. -/
theorem testBit_spread_of_forall_ne {width t b : Nat} :
    ∀ {ps : List Nat}, (∀ p ∈ ps, width - 1 - p ≠ b) → (spread width t ps).testBit b = false
  | [], _ => by simp [spread]
  | p :: ps, h => by
    have hp : width - 1 - p ≠ b := h p List.mem_cons_self
    have ih := testBit_spread_of_forall_ne (t := t) (ps := ps) fun q hq => h q (List.mem_cons_of_mem p hq)
    simp only [spread, Nat.testBit_or, ih, Bool.or_false]
    split <;> simp [Nat.testBit_two_pow_of_ne hp]

end Sys2Proof.Machine
end

