-- ==== Sys2Proof/Laws/State.lean ====
section
/-! SUPPORT. One lemma per field per named update of the state, so that no later proof unfolds an update
(spec/10_state.md R20). -/

namespace Sys2Proof.Machine

-- raise
@[simp] theorem State.raise_engine (s : State) (e : ErrCode) : (s.raise e).engine = s.engine := rfl
@[simp] theorem State.raise_S (s : State) (e : ErrCode) : (s.raise e).S = s.S := rfl
@[simp] theorem State.raise_RK (s : State) (e : ErrCode) : (s.raise e).RK = s.RK := rfl
@[simp] theorem State.raise_TK (s : State) (e : ErrCode) : (s.raise e).TK = s.TK := rfl
@[simp] theorem State.raise_ERR (s : State) (e : ErrCode) : (s.raise e).ERR = stickyErr s.ERR e := rfl
@[simp] theorem State.raise_script (s : State) (e : ErrCode) : (s.raise e).script = s.script := rfl
@[simp] theorem State.raise_din (s : State) (e : ErrCode) : (s.raise e).din = s.din := rfl
@[simp] theorem State.raise_resp (s : State) (e : ErrCode) : (s.raise e).resp = some { code := e, dout := 0 } := rfl

-- clearErr
@[simp] theorem State.clearErr_engine (s : State) : (s.clearErr).engine = s.engine := rfl
@[simp] theorem State.clearErr_S (s : State) : (s.clearErr).S = s.S := rfl
@[simp] theorem State.clearErr_RK (s : State) : (s.clearErr).RK = s.RK := rfl
@[simp] theorem State.clearErr_TK (s : State) : (s.clearErr).TK = s.TK := rfl
@[simp] theorem State.clearErr_ERR (s : State) : (s.clearErr).ERR = .ok := rfl
@[simp] theorem State.clearErr_script (s : State) : (s.clearErr).script = s.script := rfl
@[simp] theorem State.clearErr_din (s : State) : (s.clearErr).din = s.din := rfl
@[simp] theorem State.clearErr_resp (s : State) : (s.clearErr).resp = s.resp := rfl

-- answer
@[simp] theorem State.answer_engine (s : State) (d : Nat) : (s.answer d).engine = s.engine := rfl
@[simp] theorem State.answer_S (s : State) (d : Nat) : (s.answer d).S = s.S := rfl
@[simp] theorem State.answer_RK (s : State) (d : Nat) : (s.answer d).RK = s.RK := rfl
@[simp] theorem State.answer_TK (s : State) (d : Nat) : (s.answer d).TK = s.TK := rfl
@[simp] theorem State.answer_ERR (s : State) (d : Nat) : (s.answer d).ERR = s.ERR := rfl
@[simp] theorem State.answer_script (s : State) (d : Nat) : (s.answer d).script = s.script := rfl
@[simp] theorem State.answer_din (s : State) (d : Nat) : (s.answer d).din = s.din := rfl
@[simp] theorem State.answer_resp (s : State) (d : Nat) : (s.answer d).resp = some { code := .ok, dout := d } := rfl

-- writeS
@[simp] theorem State.writeS_engine (s : State) (x : Block) : (s.writeS x).engine = s.engine := rfl
@[simp] theorem State.writeS_S (s : State) (x : Block) : (s.writeS x).S = some x := rfl
@[simp] theorem State.writeS_RK (s : State) (x : Block) : (s.writeS x).RK = s.RK := rfl
@[simp] theorem State.writeS_TK (s : State) (x : Block) : (s.writeS x).TK = s.TK := rfl
@[simp] theorem State.writeS_ERR (s : State) (x : Block) : (s.writeS x).ERR = s.ERR := rfl
@[simp] theorem State.writeS_script (s : State) (x : Block) : (s.writeS x).script = s.script := rfl
@[simp] theorem State.writeS_din (s : State) (x : Block) : (s.writeS x).din = s.din := rfl
@[simp] theorem State.writeS_resp (s : State) (x : Block) : (s.writeS x).resp = s.resp := rfl

-- writeRk
@[simp] theorem State.writeRk_engine (s : State) (r : Nat) (k : Block) : (s.writeRk r k).engine = s.engine := rfl
@[simp] theorem State.writeRk_S (s : State) (r : Nat) (k : Block) : (s.writeRk r k).S = s.S := rfl
@[simp] theorem State.writeRk_RK (s : State) (r : Nat) (k : Block) : (s.writeRk r k).RK = s.RK.set r (some k) := rfl
@[simp] theorem State.writeRk_TK (s : State) (r : Nat) (k : Block) : (s.writeRk r k).TK = s.TK := rfl
@[simp] theorem State.writeRk_ERR (s : State) (r : Nat) (k : Block) : (s.writeRk r k).ERR = s.ERR := rfl
@[simp] theorem State.writeRk_script (s : State) (r : Nat) (k : Block) : (s.writeRk r k).script = s.script := rfl
@[simp] theorem State.writeRk_din (s : State) (r : Nat) (k : Block) : (s.writeRk r k).din = s.din := rfl
@[simp] theorem State.writeRk_resp (s : State) (r : Nat) (k : Block) : (s.writeRk r k).resp = s.resp := rfl

-- writeRks
@[simp] theorem State.writeRks_engine (s : State) (ks : List Block) : (s.writeRks ks).engine = s.engine := rfl
@[simp] theorem State.writeRks_S (s : State) (ks : List Block) : (s.writeRks ks).S = s.S := rfl
@[simp] theorem State.writeRks_RK (s : State) (ks : List Block) : (s.writeRks ks).RK = ks.map some := rfl
@[simp] theorem State.writeRks_TK (s : State) (ks : List Block) : (s.writeRks ks).TK = s.TK := rfl
@[simp] theorem State.writeRks_ERR (s : State) (ks : List Block) : (s.writeRks ks).ERR = s.ERR := rfl
@[simp] theorem State.writeRks_script (s : State) (ks : List Block) : (s.writeRks ks).script = s.script := rfl
@[simp] theorem State.writeRks_din (s : State) (ks : List Block) : (s.writeRks ks).din = s.din := rfl
@[simp] theorem State.writeRks_resp (s : State) (ks : List Block) : (s.writeRks ks).resp = s.resp := rfl

-- writeTuple
@[simp] theorem State.writeTuple_engine (s : State) (t : KeyTuple Block) : (s.writeTuple t).engine = s.engine := rfl
@[simp] theorem State.writeTuple_S (s : State) (t : KeyTuple Block) : (s.writeTuple t).S = s.S := rfl
@[simp] theorem State.writeTuple_RK (s : State) (t : KeyTuple Block) : (s.writeTuple t).RK = s.RK := rfl
@[simp] theorem State.writeTuple_TK (s : State) (t : KeyTuple Block) : (s.writeTuple t).TK = { k0 := some t.k0, k1 := some t.k1, k0p := some t.k0p, k1a := some t.k1a } := rfl
@[simp] theorem State.writeTuple_ERR (s : State) (t : KeyTuple Block) : (s.writeTuple t).ERR = s.ERR := rfl
@[simp] theorem State.writeTuple_script (s : State) (t : KeyTuple Block) : (s.writeTuple t).script = s.script := rfl
@[simp] theorem State.writeTuple_din (s : State) (t : KeyTuple Block) : (s.writeTuple t).din = s.din := rfl
@[simp] theorem State.writeTuple_resp (s : State) (t : KeyTuple Block) : (s.writeTuple t).resp = s.resp := rfl

-- discard
@[simp] theorem State.discard_engine (s : State) : (s.discard).engine = s.engine := rfl
@[simp] theorem State.discard_S (s : State) : (s.discard).S = none := rfl
@[simp] theorem State.discard_RK (s : State) : (s.discard).RK = List.replicate s.cfg.nrounds none := rfl
@[simp] theorem State.discard_TK (s : State) : (s.discard).TK = { k0 := none, k1 := none, k0p := none, k1a := none } := rfl
@[simp] theorem State.discard_ERR (s : State) : (s.discard).ERR = s.ERR := rfl
@[simp] theorem State.discard_script (s : State) : (s.discard).script = s.script := rfl
@[simp] theorem State.discard_din (s : State) : (s.discard).din = s.din := rfl
@[simp] theorem State.discard_resp (s : State) : (s.discard).resp = s.resp := rfl

-- accept
@[simp] theorem State.accept_engine (s : State) (q : Request) (rest : List HostEvent) : (s.accept q rest).engine = s.engine := rfl
@[simp] theorem State.accept_S (s : State) (q : Request) (rest : List HostEvent) : (s.accept q rest).S = s.S := rfl
@[simp] theorem State.accept_RK (s : State) (q : Request) (rest : List HostEvent) : (s.accept q rest).RK = s.RK := rfl
@[simp] theorem State.accept_TK (s : State) (q : Request) (rest : List HostEvent) : (s.accept q rest).TK = s.TK := rfl
@[simp] theorem State.accept_ERR (s : State) (q : Request) (rest : List HostEvent) : (s.accept q rest).ERR = s.ERR := rfl
@[simp] theorem State.accept_script (s : State) (q : Request) (rest : List HostEvent) : (s.accept q rest).script = rest := rfl
@[simp] theorem State.accept_din (s : State) (q : Request) (rest : List HostEvent) : (s.accept q rest).din = q.din := rfl
@[simp] theorem State.accept_resp (s : State) (q : Request) (rest : List HostEvent) : (s.accept q rest).resp = s.resp := rfl

-- takeReset
@[simp] theorem State.takeReset_engine (s : State) (rest : List HostEvent) : (s.takeReset rest).engine = s.engine := rfl
@[simp] theorem State.takeReset_S (s : State) (rest : List HostEvent) : (s.takeReset rest).S = none := rfl
@[simp] theorem State.takeReset_RK (s : State) (rest : List HostEvent) : (s.takeReset rest).RK = List.replicate s.cfg.nrounds none := rfl
@[simp] theorem State.takeReset_TK (s : State) (rest : List HostEvent) : (s.takeReset rest).TK = { k0 := none, k1 := none, k0p := none, k1a := none } := rfl
@[simp] theorem State.takeReset_ERR (s : State) (rest : List HostEvent) : (s.takeReset rest).ERR = .ok := rfl
@[simp] theorem State.takeReset_script (s : State) (rest : List HostEvent) : (s.takeReset rest).script = rest := rfl
@[simp] theorem State.takeReset_din (s : State) (rest : List HostEvent) : (s.takeReset rest).din = 0 := rfl
@[simp] theorem State.takeReset_resp (s : State) (rest : List HostEvent) : (s.takeReset rest).resp = none := rfl

-- idle
@[simp] theorem State.idle_engine (s : State) : (s.idle).engine = s.engine := rfl
@[simp] theorem State.idle_S (s : State) : (s.idle).S = s.S := rfl
@[simp] theorem State.idle_RK (s : State) : (s.idle).RK = s.RK := rfl
@[simp] theorem State.idle_TK (s : State) : (s.idle).TK = s.TK := rfl
@[simp] theorem State.idle_ERR (s : State) : (s.idle).ERR = s.ERR := rfl
@[simp] theorem State.idle_script (s : State) : (s.idle).script = s.script := rfl
@[simp] theorem State.idle_din (s : State) : (s.idle).din = s.din := rfl
@[simp] theorem State.idle_resp (s : State) : (s.idle).resp = none := rfl

-- writeTk
@[simp] theorem State.writeTk_engine (s : State) (j : Nat) (k : Block) : (s.writeTk j k).engine = s.engine := by
  unfold State.writeTk; split <;> rfl
@[simp] theorem State.writeTk_S (s : State) (j : Nat) (k : Block) : (s.writeTk j k).S = s.S := by
  unfold State.writeTk; split <;> rfl
@[simp] theorem State.writeTk_RK (s : State) (j : Nat) (k : Block) : (s.writeTk j k).RK = s.RK := by
  unfold State.writeTk; split <;> rfl
@[simp] theorem State.writeTk_ERR (s : State) (j : Nat) (k : Block) : (s.writeTk j k).ERR = s.ERR := by
  unfold State.writeTk; split <;> rfl
@[simp] theorem State.writeTk_script (s : State) (j : Nat) (k : Block) : (s.writeTk j k).script = s.script := by
  unfold State.writeTk; split <;> rfl
@[simp] theorem State.writeTk_din (s : State) (j : Nat) (k : Block) : (s.writeTk j k).din = s.din := by
  unfold State.writeTk; split <;> rfl
@[simp] theorem State.writeTk_resp (s : State) (j : Nat) (k : Block) : (s.writeTk j k).resp = s.resp := by
  unfold State.writeTk; split <;> rfl
@[simp] theorem State.writeTk_0_TK (s : State) (k : Block) :
    (s.writeTk 0 k).TK = { s.TK with k0 := some k } := rfl
@[simp] theorem State.writeTk_1_TK (s : State) (k : Block) :
    (s.writeTk 1 k).TK = { s.TK with k1 := some k } := rfl
@[simp] theorem State.writeTk_2_TK (s : State) (k : Block) :
    (s.writeTk 2 k).TK = { s.TK with k0p := some k } := rfl
@[simp] theorem State.writeTk_3_TK (s : State) (k : Block) :
    (s.writeTk 3 k).TK = { s.TK with k1a := some k } := rfl

-- withFetchWord: the script alone changes, by one request in front
@[simp] theorem State.withFetchWord_engine (s : State) (nbits w : Nat) : (s.withFetchWord nbits w).engine = s.engine := rfl
@[simp] theorem State.withFetchWord_S (s : State) (nbits w : Nat) : (s.withFetchWord nbits w).S = s.S := rfl
@[simp] theorem State.withFetchWord_RK (s : State) (nbits w : Nat) : (s.withFetchWord nbits w).RK = s.RK := rfl
@[simp] theorem State.withFetchWord_TK (s : State) (nbits w : Nat) : (s.withFetchWord nbits w).TK = s.TK := rfl
@[simp] theorem State.withFetchWord_ERR (s : State) (nbits w : Nat) : (s.withFetchWord nbits w).ERR = s.ERR := rfl
@[simp] theorem State.withFetchWord_din (s : State) (nbits w : Nat) : (s.withFetchWord nbits w).din = s.din := rfl
@[simp] theorem State.withFetchWord_resp (s : State) (nbits w : Nat) : (s.withFetchWord nbits w).resp = s.resp := rfl
@[simp] theorem State.withFetchWord_script (s : State) (nbits w : Nat) :
    (s.withFetchWord nbits w).script =
      .command { cmd := BitVec.ofNat 16 (w % 2 ^ nbits), din := s.din } :: s.script := rfl

-- the reset state of an engine
@[simp] theorem State.resetOf_engine (e : Engine) : (State.resetOf e).engine = e := rfl
@[simp] theorem State.resetOf_S (e : Engine) : (State.resetOf e).S = none := rfl
@[simp] theorem State.resetOf_RK (e : Engine) : (State.resetOf e).RK = List.replicate e.cfg.nrounds none := rfl
@[simp] theorem State.resetOf_TK (e : Engine) : (State.resetOf e).TK = { k0 := none, k1 := none, k0p := none, k1a := none } := rfl
@[simp] theorem State.resetOf_ERR (e : Engine) : (State.resetOf e).ERR = .ok := rfl
@[simp] theorem State.resetOf_script (e : Engine) : (State.resetOf e).script = [] := rfl
@[simp] theorem State.resetOf_din (e : Engine) : (State.resetOf e).din = 0 := rfl
@[simp] theorem State.resetOf_resp (e : Engine) : (State.resetOf e).resp = none := rfl

end Sys2Proof.Machine
end

