-- ==== Sys2Proof/Laws/Ops.lean ====
section
/-! SUPPORT. Once for each shared operation, everything it can do: what a proof cites instead of unfolding the
operation (spec/60_exceptions.md R256, spec/10_state.md R22 to R28, spec/30_encoding.md R62, R63). -/

namespace Sys2Proof.Machine

-- completing a command

@[simp] theorem State.commit_ok (s t : State) (d : Nat) : s.commit (.ok (t, d)) = .next (t.answer d) := rfl

@[simp] theorem State.commit_error (s : State) (e : ErrCode) : s.commit (.error e) = .next (s.raise e) := rfl

/-- A completed command always answers a next state. -/
theorem State.commit_answers (s : State) (r : Result) : ∃ t, s.commit r = .next t := by
  cases r with
  | error e => exact ⟨_, rfl⟩
  | ok p => exact ⟨_, rfl⟩

/-- Everything `commit` can do. -/
theorem State.commit_cases {s u : State} {r : Result} (h : s.commit r = .next u) :
    (∃ e, r = .error e ∧ u = s.raise e) ∨ (∃ t d, r = .ok (t, d) ∧ u = t.answer d) := by
  cases r with
  | error e => exact .inl ⟨e, rfl, (Host.Outcome.next.inj h).symm⟩
  | ok p => exact .inr ⟨p.1, p.2, rfl, (Host.Outcome.next.inj h).symm⟩

-- sequencing: the checks before the effect

@[simp] theorem result_bind_ok {α β : Type} (a : α) (f : α → Except ErrCode β) :
    (Except.ok a >>= f) = f a := rfl

@[simp] theorem result_bind_error {α β : Type} (e : ErrCode) (f : α → Except ErrCode β) :
    (Except.error e >>= f) = .error e := rfl

@[simp] theorem result_pure {α : Type} (a : α) : (pure a : Except ErrCode α) = .ok a := rfl

/-- A sequence succeeds exactly when both of its parts do. -/
theorem result_bind_eq_ok {α β : Type} {r : Except ErrCode α} {f : α → Except ErrCode β} {b : β} :
    (r >>= f) = .ok b ↔ ∃ a, r = .ok a ∧ f a = .ok b := by
  cases r with
  | error e => simp
  | ok a => simp

-- operand forms

@[simp] theorem require_true (e : ErrCode) : require true e = .ok () := rfl

@[simp] theorem require_false (e : ErrCode) : require false e = .error e := rfl

theorem require_eq_ok {b : Bool} {e : ErrCode} : require b e = .ok () ↔ b = true := by
  cases b <;> simp

theorem rkIndex_of_lt {s : State} {r : Idx} (h : r.toNat < s.cfg.nrounds) : rkIndex s r = .ok () := by
  simp [rkIndex, h]

theorem rkIndex_of_ge {s : State} {r : Idx} (h : s.cfg.nrounds ≤ r.toNat) : rkIndex s r = .error .range := by
  simp [rkIndex, Nat.not_lt.mpr h]

theorem tkIndex_of_lt {j : Idx} (h : j.toNat < 4) : tkIndex j = .ok () := by
  simp [tkIndex, h]

theorem tkIndex_of_ge {j : Idx} (h : 4 ≤ j.toNat) : tkIndex j = .error .range := by
  simp [tkIndex, Nat.not_lt.mpr h]

theorem roundCount_of_le {s : State} {n : Idx} (h : n.toNat ≤ s.cfg.nrounds) : roundCount s n = .ok () := by
  simp [roundCount, h]

theorem roundCount_of_gt {s : State} {n : Idx} (h : s.cfg.nrounds < n.toNat) :
    roundCount s n = .error .range := by
  simp [roundCount, Nat.not_le.mpr h]

theorem dinKey_of_fits {s : State} {width : Nat} (h : s.din >>> width = 0) :
    dinKey s width = .ok (slice s.din (width - 1) 0) := by
  simp [dinKey, h]

theorem dinKey_of_wide {s : State} {width : Nat} (h : s.din >>> width ≠ 0) :
    dinKey s width = .error .size := by
  simp [dinKey, h]

-- reading registers

theorem State.readS_eq_ok {s : State} {x : Block} : s.readS = .ok x ↔ s.S = some x := by
  unfold State.readS; cases s.S <;> simp

theorem State.readS_eq_error {s : State} {e : ErrCode} : s.readS = .error e ↔ s.S = none ∧ e = .size := by
  unfold State.readS; cases s.S <;> simp [eq_comm]

theorem State.readRk_eq_ok {s : State} {r : Nat} {k : Block} : s.readRk r = .ok k ↔ s.rkVal r = some k := by
  unfold State.readRk; cases s.rkVal r <;> simp

theorem State.readRk_eq_error {s : State} {r : Nat} {e : ErrCode} :
    s.readRk r = .error e ↔ s.rkVal r = none ∧ e = .size := by
  unfold State.readRk; cases s.rkVal r <;> simp [eq_comm]

theorem State.readTk_eq_ok {s : State} {j : Nat} {k : Block} : s.readTk j = .ok k ↔ s.tkVal j = some k := by
  unfold State.readTk; cases s.tkVal j <;> simp

theorem State.readTk_eq_error {s : State} {j : Nat} {e : ErrCode} :
    s.readTk j = .error e ↔ s.tkVal j = none ∧ e = .size := by
  unfold State.readTk; cases s.tkVal j <;> simp [eq_comm]

/-- `allValid` gives the contents exactly when every register of the list has a value. -/
theorem allValid_eq_some {rs : List (Option Block)} {ks : List Block} :
    allValid rs = some ks ↔ rs = ks.map some := by
  induction rs generalizing ks with
  | nil => cases ks <;> simp [allValid]
  | cons r rs ih =>
    cases r with
    | none => cases ks <;> simp [allValid]
    | some k => cases ks <;> simp [allValid, ih, and_comm]

/-- `allValid` gives nothing exactly when some register of the list has no value. -/
theorem allValid_eq_none {rs : List (Option Block)} : allValid rs = none ↔ none ∈ rs := by
  induction rs with
  | nil => simp [allValid]
  | cons r rs ih => cases r <;> simp [allValid, ih]

theorem State.readRks_eq_ok {s : State} {n : Nat} {ks : List Block} :
    s.readRks n = .ok ks ↔ (List.range n).map s.rkVal = ks.map some := by
  rw [← allValid_eq_some]
  unfold State.readRks
  cases allValid ((List.range n).map s.rkVal) <;> simp

/-- Reading `RK[0 .. n-1]` gives `n` blocks, entry `r` being the contents of `RK[r]`. -/
theorem State.readRks_entries {s : State} {n : Nat} {ks : List Block} (h : s.readRks n = .ok ks) :
    ks.length = n ∧ ∀ r < n, s.rkVal r = ks[r]? := by
  have h := State.readRks_eq_ok.mp h
  have hl : n = ks.length := by simpa using congrArg List.length h
  refine ⟨hl.symm, fun r hr => ?_⟩
  have := congrArg (fun l => l[r]?) h
  simp [hr, hl ▸ hr] at this
  simp [this, hl ▸ hr]

theorem State.readTuple_eq_ok {s : State} {t : KeyTuple Block} :
    s.readTuple = .ok t ↔
      s.TK = { k0 := some t.k0, k1 := some t.k1, k0p := some t.k0p, k1a := some t.k1a } := by
  obtain ⟨a, b, c, d⟩ := t
  unfold State.readTuple
  split
  · rename_i h
    simp [h]
  · rename_i h
    constructor
    · intro h'; cases h'
    · intro h'; exact absurd h' (h a b c d)

-- writing registers

theorem State.rkVal_writeRk {s : State} {r i : Nat} {k : Block} (h : r < s.RK.length) :
    (s.writeRk r k).rkVal i = if i = r then some k else s.rkVal i := by
  unfold State.rkVal
  by_cases hi : i = r
  · subst hi; simp [List.getD, h]
  · simp [List.getD, hi, Ne.symm hi]

theorem State.tkVal_writeTk {s : State} {j i : Nat} {k : Block} (h : j < 4) :
    (s.writeTk j k).tkVal i = if i = j then some k else s.tkVal i := by
  have hj : j = 0 ∨ j = 1 ∨ j = 2 ∨ j = 3 := by omega
  have hi : i = 0 ∨ i = 1 ∨ i = 2 ∨ i = 3 ∨ 4 ≤ i := by omega
  rcases hj with rfl | rfl | rfl | rfl <;> rcases hi with rfl | rfl | rfl | rfl | hi <;>
    simp [State.tkVal, tupleEntry] <;>
    (obtain ⟨n, rfl⟩ := Nat.exists_eq_add_of_le hi; simp [Nat.add_comm 4 n])

-- the transforming templates

theorem State.transform_of_S {s : State} {x : Block} {f : Block → Block} (h : s.S = some x) :
    s.transform f = .ok (s.writeS (f x), 0) := by
  simp [State.transform, State.readS_eq_ok.mpr h]

theorem State.transform_of_none {s : State} {f : Block → Block} (h : s.S = none) :
    s.transform f = .error .size := by
  simp [State.transform, State.readS_eq_error.mpr ⟨h, rfl⟩]

theorem State.transformRk_of_valid {s : State} {r : Idx} {x k : Block} {f : Block → Block → Block}
    (hr : r.toNat < s.cfg.nrounds) (hx : s.S = some x) (hk : s.rkVal r.toNat = some k) :
    s.transformRk r f = .ok (s.writeS (f x k), 0) := by
  simp [State.transformRk, rkIndex_of_lt hr, State.readS_eq_ok.mpr hx, State.readRk_eq_ok.mpr hk]

theorem State.transformTk_of_valid {s : State} {j : Idx} {x k : Block} {f : Block → Block → Block}
    (hj : j.toNat < 4) (hx : s.S = some x) (hk : s.tkVal j.toNat = some k) :
    s.transformTk j f = .ok (s.writeS (f x k), 0) := by
  simp [State.transformTk, tkIndex_of_lt hj, State.readS_eq_ok.mpr hx, State.readTk_eq_ok.mpr hk]

theorem State.transformRks_of_valid {s : State} {n : Nat} {x : Block} {ks : List Block}
    {f : Block → List Block → Block} (hx : s.S = some x) (hk : (List.range n).map s.rkVal = ks.map some) :
    s.transformRks n f = .ok (s.writeS (f x ks), 0) := by
  simp [State.transformRks, State.readS_eq_ok.mpr hx, State.readRks_eq_ok.mpr hk]

theorem State.transformTuple_of_valid {s : State} {x : Block} {t : KeyTuple Block}
    {f : Block → KeyTuple Block → Block} (hx : s.S = some x)
    (ht : s.TK = { k0 := some t.k0, k1 := some t.k1, k0p := some t.k0p, k1a := some t.k1a }) :
    s.transformTuple f = .ok (s.writeS (f x t), 0) := by
  simp [State.transformTuple, State.readS_eq_ok.mpr hx, State.readTuple_eq_ok.mpr ht]

-- the sticky register

@[simp] theorem stickyErr_ok_old (e : ErrCode) : stickyErr .ok e = e := rfl

theorem stickyErr_of_ne {old e : ErrCode} (h : old ≠ .ok) : stickyErr old e = old := by
  simp [stickyErr, h]

end Sys2Proof.Machine
end

