-- ==== Sys2Proof/Laws/PerInstr.lean ====
section
/-! SUPPORT. A fact about every command as syntax, one lemma per constructor: the word the encoder writes lies in
the command's own table row, `(w AND mask) = match` (spec/30_encoding.md R61). -/

namespace Sys2Proof.Laws

/-- The command's word fits its table row (R61). -/
def EncodeFitsRow.Statement (i : Instr) : Prop := encode i &&& rowMask i = rowMatch i

/-- In format `I` the mask keeps the opcode byte and clears the operand byte. -/
theorem mask_opcode (o ii : BitVec 8) : (o ++ ii) &&& (0xFF00 : BitVec 16) = o ++ (0 : BitVec 8) := by
  have h : (0xFF00 : BitVec 16) = (BitVec.allOnes 8 ++ (0 : BitVec 8) : BitVec 16) := by decide
  rw [h, BitVec.and_append, BitVec.and_allOnes]
  simp

theorem EncodeFitsRow.nop : EncodeFitsRow.Statement .nop := by unfold EncodeFitsRow.Statement; decide
theorem EncodeFitsRow.clrerr : EncodeFitsRow.Statement .clrerr := by unfold EncodeFitsRow.Statement; decide
theorem EncodeFitsRow.clr : EncodeFitsRow.Statement .clr := by unfold EncodeFitsRow.Statement; decide
theorem EncodeFitsRow.lds : EncodeFitsRow.Statement .lds := by unfold EncodeFitsRow.Statement; decide
theorem EncodeFitsRow.rds : EncodeFitsRow.Statement .rds := by unfold EncodeFitsRow.Statement; decide
theorem EncodeFitsRow.ldrk (ii : Idx) : EncodeFitsRow.Statement (.ldrk ii) := mask_opcode _ ii
theorem EncodeFitsRow.rdrk (ii : Idx) : EncodeFitsRow.Statement (.rdrk ii) := mask_opcode _ ii
theorem EncodeFitsRow.ldtk (ii : Idx) : EncodeFitsRow.Statement (.ldtk ii) := mask_opcode _ ii
theorem EncodeFitsRow.rdtk (ii : Idx) : EncodeFitsRow.Statement (.rdtk ii) := mask_opcode _ ii
theorem EncodeFitsRow.sub : EncodeFitsRow.Statement .sub := by unfold EncodeFitsRow.Statement; decide
theorem EncodeFitsRow.subi : EncodeFitsRow.Statement .subi := by unfold EncodeFitsRow.Statement; decide
theorem EncodeFitsRow.prm : EncodeFitsRow.Statement .prm := by unfold EncodeFitsRow.Statement; decide
theorem EncodeFitsRow.prmi : EncodeFitsRow.Statement .prmi := by unfold EncodeFitsRow.Statement; decide
theorem EncodeFitsRow.mmul : EncodeFitsRow.Statement .mmul := by unfold EncodeFitsRow.Statement; decide
theorem EncodeFitsRow.mmuli : EncodeFitsRow.Statement .mmuli := by unfold EncodeFitsRow.Statement; decide
theorem EncodeFitsRow.addrk (ii : Idx) : EncodeFitsRow.Statement (.addrk ii) := mask_opcode _ ii
theorem EncodeFitsRow.addtk (ii : Idx) : EncodeFitsRow.Statement (.addtk ii) := mask_opcode _ ii
theorem EncodeFitsRow.addd : EncodeFitsRow.Statement .addd := by unfold EncodeFitsRow.Statement; decide
theorem EncodeFitsRow.ksch : EncodeFitsRow.Statement .ksch := by unfold EncodeFitsRow.Statement; decide
theorem EncodeFitsRow.rndf (ii : Idx) : EncodeFitsRow.Statement (.rndf ii) := mask_opcode _ ii
theorem EncodeFitsRow.rndi (ii : Idx) : EncodeFitsRow.Statement (.rndi ii) := mask_opcode _ ii
theorem EncodeFitsRow.enc : EncodeFitsRow.Statement .enc := by unfold EncodeFitsRow.Statement; decide
theorem EncodeFitsRow.dec : EncodeFitsRow.Statement .dec := by unfold EncodeFitsRow.Statement; decide
theorem EncodeFitsRow.encr (ii : Idx) : EncodeFitsRow.Statement (.encr ii) := mask_opcode _ ii
theorem EncodeFitsRow.decr (ii : Idx) : EncodeFitsRow.Statement (.decr ii) := mask_opcode _ ii
theorem EncodeFitsRow.rksch : EncodeFitsRow.Statement .rksch := by unfold EncodeFitsRow.Statement; decide
theorem EncodeFitsRow.rkswp : EncodeFitsRow.Statement .rkswp := by unfold EncodeFitsRow.Statement; decide
theorem EncodeFitsRow.rndft (ii : Idx) : EncodeFitsRow.Statement (.rndft ii) := mask_opcode _ ii
theorem EncodeFitsRow.rndit (ii : Idx) : EncodeFitsRow.Statement (.rndit ii) := mask_opcode _ ii
theorem EncodeFitsRow.mid : EncodeFitsRow.Statement .mid := by unfold EncodeFitsRow.Statement; decide
theorem EncodeFitsRow.renc : EncodeFitsRow.Statement .renc := by unfold EncodeFitsRow.Statement; decide
theorem EncodeFitsRow.rdec : EncodeFitsRow.Statement .rdec := by unfold EncodeFitsRow.Statement; decide

end Sys2Proof.Laws
end

