-- ==== Sys2Proof/Tests/Slice0.lean ====
section
/-! SUPPORT. The model's own tests: every command's word written out from spec/30_encoding.md R66, the vectors of
spec/95_test_vectors.md section 3, the well-formedness smoke tests, and one witness for the hypotheses of each
statement of Certificates/Slice0/Obligations.lean. Expected values are the spec's, never the model's. -/

namespace Sys2Proof.Tests

open Sys2Proof.Machine

-- decoding: the words of R66

theorem test_decode_control :
    decode 0x0000 = .ok .nop ∧ decode 0x0100 = .ok .clrerr ∧ decode 0x0200 = .ok .clr := by decide

theorem test_decode_movement :
    decode 0x1000 = .ok .lds ∧ decode 0x1100 = .ok .rds ∧ decode 0x1202 = .ok (.ldrk 2) ∧
      decode 0x1300 = .ok (.rdrk 0) ∧ decode 0x1403 = .ok (.ldtk 3) ∧ decode 0x1502 = .ok (.rdtk 2) := by decide

theorem test_decode_layers :
    decode 0x2000 = .ok .sub ∧ decode 0x2100 = .ok .subi ∧ decode 0x2200 = .ok .prm ∧
      decode 0x2300 = .ok .prmi ∧ decode 0x2400 = .ok .mmul ∧ decode 0x2500 = .ok .mmuli ∧
      decode 0x2601 = .ok (.addrk 1) ∧ decode 0x2703 = .ok (.addtk 3) ∧ decode 0x2800 = .ok .addd := by decide

theorem test_decode_spn :
    decode 0x3000 = .ok .ksch ∧ decode 0x3107 = .ok (.rndf 7) ∧ decode 0x3202 = .ok (.rndi 2) ∧
      decode 0x3300 = .ok .enc ∧ decode 0x3400 = .ok .dec ∧ decode 0x3503 = .ok (.encr 3) ∧
      decode 0x36FF = .ok (.decr 255) := by decide

theorem test_decode_reflector :
    decode 0x4000 = .ok .rksch ∧ decode 0x4100 = .ok .rkswp ∧ decode 0x4201 = .ok (.rndft 1) ∧
      decode 0x4303 = .ok (.rndit 3) ∧ decode 0x4400 = .ok .mid ∧ decode 0x4500 = .ok .renc ∧
      decode 0x4600 = .ok .rdec := by decide

/-- Section 3.7: undefined opcodes and reserved forms; `decodeTableWord` reads a row's bits. -/
theorem test_decode_illegal :
    decode 0x0300 = .error .undefinedOpcode ∧ decode 0xFF00 = .error .undefinedOpcode ∧
      decode 0x2001 = .error .reservedIdx ∧ decode 0x0001 = .error .reservedIdx ∧
      decodeTableWord 16 0x3107 = some (.rndf 7) ∧ decodeTableWord 16 0x4700 = none := by decide

-- well-formedness: an ill-formed term for each check

theorem test_wellFormed_roundKey :
    Instr.wellFormed cfgTA (.rndf 2) = true ∧ Instr.wellFormed cfgTA (.rndf 3) = false := by decide

theorem test_wellFormed_subKey :
    Instr.wellFormed cfgTA (.ldtk 3) = true ∧ Instr.wellFormed cfgTA (.ldtk 4) = false := by decide

theorem test_wellFormed_count :
    Instr.wellFormed cfgTA (.encr 3) = true ∧ Instr.wellFormed cfgTA (.encr 4) = false := by decide

theorem test_blockFits :
    blockFits cfgTA [1, 2, 3, 15] = true ∧ blockFits cfgTA [1, 2, 3] = false ∧
      blockFits cfgTA [1, 2, 3, 16] = false ∧ regFits cfgTA (some [16, 0, 0, 0]) = false := by decide

/-- `validateConfig` refuses each kind of invalid configuration (R9, R254). -/
theorem test_validateConfig :
    validateConfig { cfgTA with pbox := [1, 2, 3, 4] } = .range ∧
      validateConfig { cfgTA with pbox := [1, 2, 3, 3] } = .valid ∧
      validateConfig { cfgTA with sbox := cfgTA.sbox.set 0 0xA } = .valid ∧
      validateConfig { cfgTA with pboxInv := [1, 2, 3, 0] } = .valid ∧
      validateConfig { cfgTA with mInv := [[1, 0, 0, 0], [0, 1, 0, 0], [0, 0, 1, 0], [0, 0, 0, 1]] } = .valid ∧
      validateConfig { cfgTA with m := [[0, 1, 1], [1, 0, 1, 1], [1, 1, 0, 1], [1, 1, 1, 0]] } = .valid ∧
      validateConfig { cfgTA with poly := 0x15 } = .valid ∧
      validateConfig { cfgTA with alpha := 0x10000 } = .valid := by decide +kernel

-- the states the tests run on

/-- `TD` (section 2): `TA` with `NROUNDS = 1` and `RHALF = 1`. -/
def cfgTD : Cfg := { cfgTA with nrounds := 1, rhalf := 1 }

theorem cfgTB_valid : validateConfig cfgTB = .ok := by decide +kernel

theorem cfgTD_valid : validateConfig cfgTD = .ok := by decide +kernel

/-- On `TA`: a block, the round keys of `KSCH 0xABCD12345678`, the tuple of `RKSCH 0x8F0112AB`, and `din`. -/
def ta (x : Block) (din : Nat) : State :=
  { State.resetOf engineTA with
    S := some x
    RK := [some [0xA, 0xB, 0xC, 0xD], some [1, 2, 3, 4], some [5, 6, 7, 8]]
    TK := { k0 := some [8, 0xF, 0, 1], k1 := some [1, 2, 0xA, 0xB],
            k0p := some [0xC, 7, 8, 1], k1a := some [3, 6, 9, 4] }
    din := din }

/-- On `TB`: the block `[3,9]` or another, the round keys of `KSCH 0x5AC3`, the tuple of `RKSCH 0x5AC3`. -/
def tb (x : Block) : State :=
  { State.resetOf ⟨cfgTB, cfgTB_valid⟩ with
    S := some x
    RK := [some [5, 0xA], some [0xC, 3]]
    TK := { k0 := some [5, 0xA], k1 := some [0xC, 3], k0p := some [2, 0xD], k1a := some [6, 6] } }

/-- `S` after a command. -/
def blockAfter : Outcome → Option Block
  | .next t => t.S
  | _ => none

/-- The response of a command. -/
def respAfter : Outcome → Option Response
  | .next t => t.resp
  | _ => none

/-- `RK` after a command. -/
def rkAfter : Outcome → List (Option Block)
  | .next t => t.RK
  | _ => []

/-- `TK` after a command, as a list. -/
def tkAfter : Outcome → List (Option Block)
  | .next t => [t.TK.k0, t.TK.k1, t.TK.k0p, t.TK.k1a]
  | _ => []

/-- `ERR` after a step. -/
def errAfter : Outcome → Option ErrCode
  | .next t => some t.ERR
  | _ => none

-- control (section 3.6)

theorem test_nop_keeps_err :
    errAfter (exec .nop { ta [1, 2, 3, 4] 0 with ERR := .size }) = some .size ∧
      respAfter (exec .nop (ta [1, 2, 3, 4] 0)) = some ⟨.ok, 0⟩ := by decide

theorem test_clrerr : errAfter (exec .clrerr { ta [1, 2, 3, 4] 0 with ERR := .size }) = some .ok := by decide

theorem test_clr :
    exec .clr (ta [1, 2, 3, 4] 0) = .next { State.resetOf engineTA with resp := some ⟨.ok, 0⟩ } := rfl

-- data movement (section 3.6)

theorem test_lds_truncates : blockAfter (exec .lds { State.reset with din := 0xFFFF00001234 }) = some [1, 2, 3, 4] := by
  decide

theorem test_rds : respAfter (exec .rds (ta [0xC, 2, 0xF, 9] 0)) = some ⟨.ok, 0xC2F9⟩ := by decide

theorem test_ldrk :
    rkAfter (exec (.ldrk 2) { State.reset with din := 0x99995678 }) = [none, none, some [5, 6, 7, 8]] := by decide

theorem test_rdrk :
    respAfter (exec (.rdrk 1) (ta [0, 0, 0, 0] 0)) = some ⟨.ok, 0x1234⟩ ∧
      respAfter (exec (.rdrk 0) State.reset) = some ⟨.size, 0⟩ := by decide

theorem test_ldtk :
    tkAfter (exec (.ldtk 3) { State.reset with din := 0xBEEF }) = [none, none, none, some [0xB, 0xE, 0xE, 0xF]] ∧
      respAfter (exec (.ldtk 4) State.reset) = some ⟨.range, 0⟩ := by decide

theorem test_rdtk :
    respAfter (exec (.rdtk 2) (ta [0, 0, 0, 0] 0)) = some ⟨.ok, 0xC781⟩ ∧
      respAfter (exec (.rdtk 3) (ta [0, 0, 0, 0] 0)) = some ⟨.ok, 0x3694⟩ := by decide

-- single layers (section 3.3)

theorem test_sub :
    blockAfter (exec .sub (ta [1, 2, 3, 4] 0)) = some [0xA, 0xD, 3, 0xE] ∧
      blockAfter (exec .sub (tb [3, 9])) = some [0xB, 0xE] := by decide

theorem test_subi : blockAfter (exec .subi (tb [3, 9])) = some [8, 4] := by decide

theorem test_prm : blockAfter (exec .prm (ta [1, 2, 3, 4] 0)) = some [2, 3, 4, 1] := by decide

theorem test_prmi : blockAfter (exec .prmi (ta [1, 2, 3, 4] 0)) = some [4, 1, 2, 3] := by decide

theorem test_mmul :
    blockAfter (exec .mmul (ta [1, 2, 3, 4] 0)) = some [5, 6, 7, 0] ∧
      blockAfter (exec .mmul (tb [3, 9])) = some [0xE, 4] := by decide +kernel

theorem test_mmuli : blockAfter (exec .mmuli (tb [0xE, 4])) = some [3, 9] := by decide +kernel

theorem test_addrk : blockAfter (exec (.addrk 0) (ta [1, 2, 3, 4] 0)) = some [0xB, 9, 0xF, 9] := by decide

theorem test_addtk : blockAfter (exec (.addtk 0) (ta [1, 2, 3, 4] 0)) = some [9, 0xD, 3, 5] := by decide

theorem test_addd : blockAfter (exec .addd (ta [1, 2, 3, 4] 0xFFFFFFFFABCD)) = some [0xB, 9, 0xF, 9] := by decide

-- the SPN cipher (section 3.4)

theorem test_ksch :
    rkAfter (exec .ksch { State.reset with din := 0xABCD12345678 }) =
      [some [0xA, 0xB, 0xC, 0xD], some [1, 2, 3, 4], some [5, 6, 7, 8]] := by decide

theorem test_ksch_wide :
    exec .ksch { State.resetOf ⟨cfgTD, cfgTD_valid⟩ with din := 0x1ABCD } =
      .next { State.resetOf ⟨cfgTD, cfgTD_valid⟩ with din := 0x1ABCD, ERR := .size, resp := some ⟨.size, 0⟩ } := rfl

theorem test_rndf :
    blockAfter (exec (.rndf 0) (ta [1, 2, 3, 4] 0)) = some [0xC, 5, 9, 0xA] ∧
      blockAfter (exec (.rndf 0) (tb [3, 9])) = some [8, 9] := by decide +kernel

theorem test_rndi :
    blockAfter (exec (.rndi 0) (ta [1, 2, 3, 4] 0)) = some [1, 4, 1, 1] ∧
      blockAfter (exec (.rndi 1) (tb [5, 3])) = some [8, 9] := by decide +kernel

theorem test_enc :
    blockAfter (exec .enc (ta [1, 2, 3, 4] 0)) = some [0xC, 2, 0xF, 9] ∧
      blockAfter (exec .enc (tb [3, 9])) = some [5, 3] := by decide +kernel

theorem test_dec : blockAfter (exec .dec (ta [1, 2, 3, 4] 0)) = some [0xB, 0xF, 0xC, 2] := by decide +kernel

theorem test_encr :
    blockAfter (exec (.encr 2) (ta [1, 2, 3, 4] 0)) = some [0xE, 0xD, 2, 6] ∧
      blockAfter (exec (.encr 0) (ta [1, 2, 3, 4] 0)) = some [1, 2, 3, 4] := by decide +kernel

theorem test_decr : blockAfter (exec (.decr 2) (ta [0xC, 2, 0xF, 9] 0)) = some [0xC, 4, 1, 2] := by decide +kernel

-- the reflector cipher (section 3.5)

theorem test_rksch :
    tkAfter (exec .rksch { State.reset with din := 0x8F0112AB }) =
      [some [8, 0xF, 0, 1], some [1, 2, 0xA, 0xB], some [0xC, 7, 8, 1], some [3, 6, 9, 4]] ∧
      respAfter (exec .rksch { State.reset with din := 0x18F0112AB }) = some ⟨.size, 0⟩ := by decide

theorem test_rkswp :
    tkAfter (exec .rkswp (ta [0, 0, 0, 0] 0)) =
      [some [0xC, 7, 8, 1], some [3, 6, 9, 4], some [8, 0xF, 0, 1], some [1, 2, 0xA, 0xB]] := by decide

theorem test_rndft : blockAfter (exec (.rndft 1) (ta [8, 0xF, 9, 0xE] 0)) = some [5, 2, 0xE, 8] := by decide +kernel

theorem test_rndit : blockAfter (exec (.rndit 3) (ta [0xD, 0xF, 1, 1] 0)) = some [0xC, 9, 0xE, 7] := by decide +kernel

theorem test_mid :
    blockAfter (exec .mid (ta [1, 2, 3, 4] 0)) = some [0xC, 7, 9, 0xE] ∧
      blockAfter (exec .mid (tb [9, 5])) = some [2, 5] := by decide +kernel

theorem test_renc : blockAfter (exec .renc (ta [1, 2, 3, 4] 0)) = some [1, 0xE, 5, 5] := by decide +kernel

theorem test_rdec :
    blockAfter (exec .rdec (ta [1, 0xE, 5, 5] 0)) = some [1, 2, 3, 4] ∧
      blockAfter (exec .rdec (tb [7, 0])) = some [6, 0xD] := by decide +kernel

-- steps (sections 3.6, 3.7)

theorem test_step_illegal :
    errAfter (step (State.reset.withFetchWord 16 0x0300)) = some .illcmd ∧
      errAfter (step ({ State.reset with ERR := .size }.withFetchWord 16 0x2001)) = some .size := by decide

theorem test_step_priority : errAfter (step (State.reset.withFetchWord 16 0x3107)) = some .range := by decide

theorem test_step_boundary :
    respAfter (step ((ta [1, 2, 3, 4] 0).withFetchWord 16 0x3504)) = some ⟨.range, 0⟩ ∧
      respAfter (step ((ta [1, 2, 3, 4] 0).withFetchWord 16 0x3103)) = some ⟨.range, 0⟩ ∧
      respAfter (step (State.reset.withFetchWord 16 0x3500)) = some ⟨.size, 0⟩ := by decide

theorem test_step_reset :
    step { ta [1, 2, 3, 4] 7 with ERR := .size, script := [.reset] } = .next (State.resetOf engineTA) := rfl

/-- The pins after a reset and a load (R29). -/
theorem test_pins :
    State.reset.pins = { err := 0, sv := false, rkv := [false, false, false], tkv := [false, false, false, false] } ∧
      { State.reset with S := some [1, 2, 3, 4], ERR := .illcmd }.pins.err = 5 := by decide

-- the function layer (sections 3.1, 3.2)

theorem test_codec :
    intToCells 0x51234 4 4 = [1, 2, 3, 4] ∧ intToCells 0x0123ABCD 2 8 = [0xAB, 0xCD] ∧
      cellsToInt [0xC, 2, 0xF, 9] 4 = 0xC2F9 ∧ cellsToInt [1, 2, 3, 4] 8 = 0x01020304 ∧ cellsToInt [] 4 = 0 := by
  decide

theorem test_rotateLeft :
    rotateLeft 4 4 3 = 2 ∧ rotateLeft 4 4 7 = 2 ∧ rotateLeft 4 4 (-1) = 2 ∧ rotateLeft 0x8F01 16 15 = 0xC780 ∧
      rotateLeft 0x14 4 1 = 8 ∧ rotateLeft 1 1 5 = 1 := by decide

/-- Section 3.2, under `POLY = 0x13` and under `POLY = 0x11B`. -/
theorem test_gfmul :
    gfmul cfgTA 2 8 = 3 ∧ gfmul cfgTA 3 7 = 9 ∧ gfmul cfgTA 15 15 = 10 ∧ gfmul cfgTA 9 11 = 12 ∧
      gfmul { cfgTA with nbits := 8, poly := 0x11B } 0x57 0x83 = 0xC1 ∧
      gfmul { cfgTA with nbits := 8, poly := 0x11B } 0x53 0xCA = 1 := by decide +kernel

/-- The asymmetric matrix of section 3.3: rows, not columns. -/
theorem test_matrix_rows : matrixMultiply cfgTB [3, 9] [[1, 1], [0, 1]] = [0xA, 9] := by decide

/-- The function layer's named errors (R103 to R105, R134). -/
theorem test_function_errors :
    substituteChecked [16] cfgTA.sbox = .error .validationError ∧ permuteChecked [1] [1] = .error .rangeError ∧
      addChecked [1] [1, 2] = .error .shapeError ∧
      encrypt cfgTA (.int 0x10000) 0 = .error .sizeMismatch ∧
      encrypt cfgTA (.cells [1, 2, 3]) 0 = .error .sizeMismatch := by decide

theorem test_encrypt : encrypt cfgTA (.int 0x1234) 0xABCD12345678 = .ok (.int 0xC2F9) := by decide +kernel

-- the host side (sections 1, 3.1, 3.8)

theorem test_hexToCells :
    hexToCells ['0', 'x', '1', '2', '3', '4'] 4 4 = some [1, 2, 3, 4] ∧ hexToCells ['0', 'x'] 4 4 = none ∧
      hexToCells ['1', 'g'] 4 4 = none := by decide

theorem test_buildMask :
    buildMask 4 none = .ok 15 ∧ buildMask 4 (some [0, 3]) = .ok 9 ∧ buildMask 8 (some [1, 6, 7]) = .ok 0xC2 ∧
      buildMask 4 (some []) = .ok 0 ∧ buildMask 4 (some [4]) = .error .rangeError := by decide

/-- R69's example line, a line without operands and one with a data operand alone. -/
theorem test_asmLine :
    asmLine (.ldrk 2) 0x5678 = "LDRK 2, 0x5678".toList ∧ asmLine .sub 0 = "SUB".toList ∧
      asmLine .lds 0x1234 = "LDS 0x1234".toList ∧ asmLine (.rndf 10) 0 = "RNDF 10".toList := by decide

/-- Section 3.8, and S8's positions listed in the other order: the same sequence (R201). -/
theorem test_enumerator :
    (Enumerator.mk 4 [0, 2] true).items = [15, 13, 7, 5] ∧ (Enumerator.mk 4 [2, 0] true).items = [15, 13, 7, 5] ∧
      (Enumerator.mk 8 [0, 7] false).items = [0, 1, 0x80, 0x81] := by decide

-- witnesses: for each statement of Obligations.lean with hypotheses, states and operands that meet them together,
-- at the boundaries of their ranges

/-- `ta` with one request presented. -/
def taAsked (cmd : CmdWord) (din : Nat) : State :=
  { ta [1, 2, 3, 4] 0 with script := [.command { cmd := cmd, din := din }] }

theorem witness_EncodeOfDecode : decode 0x12FF = .ok (.ldrk 255) ∧ decode 0x4600 = .ok .rdec := by decide

theorem witness_WordsMatchTheirTableRow :
    (0x3503#16 &&& 0xFF00 = opcodeOf (.encr 3) ++ (0 : BitVec 8) ∧ idxOf (.encr 3) = idxField 0x3503) ∧
      (0x3300#16 &&& 0xFFFF = opcodeOf .enc ++ (0 : BitVec 8) ∧ idxOf .enc = 0) := by decide

/-- Each of R65's opcode ranges at both ends, the words just outside them, and a reserved form. -/
theorem witness_IllegalWordsRaiseIllcmd :
    ([0x0300, 0x0FFF, 0x1600, 0x1FFF, 0x2900, 0x2FFF, 0x3700, 0x3FFF, 0x4700, 0xFFFF].map fun w => decodeTableWord 16 w) =
        List.replicate 10 none ∧
      ([0x0200, 0x1000, 0x15FF, 0x2000, 0x2800, 0x3000, 0x36FF, 0x4000, 0x4600].map fun w => decodeTableWord 16 w) =
        [some .clr, some .lds, some (.rdtk 255), some .sub, some .addd, some .ksch, some (.decr 255), some .rksch,
          some .rdec] ∧
      (taAsked 0x2001 0).script = .command { cmd := 0x2001, din := 0 } :: [] ∧
      Request.onBus cfgTA { cmd := 0x2001, din := 0 } = true ∧
      takesIdx .sub = false ∧ opcodeOf .sub = opcodeField 0x2001 ∧ idxField 0x2001 ≠ 0 := by decide

/-- The widest value of the 48-bit bus of `TA` fits it. -/
theorem witness_StepRunsTheDecodedCommand :
    (taAsked 0x2000 (2 ^ 48 - 1)).script = .command { cmd := 0x2000, din := 2 ^ 48 - 1 } :: [] ∧
      Request.onBus cfgTA { cmd := 0x2000, din := 2 ^ 48 - 1 } = true ∧ decode 0x2000 = .ok .sub := by decide

theorem witness_StepWithoutACommand :
    { ta [1, 2, 3, 4] 0 with script := [HostEvent.reset] }.script = .reset :: [] ∧ (ta [1, 2, 3, 4] 0).script = [] ∧
      (taAsked 0x2000 (2 ^ 48)).script = .command { cmd := 0x2000, din := 2 ^ 48 } :: [] ∧
      2 ^ (taAsked 0x2000 (2 ^ 48)).cfg.DW ≤ 2 ^ 48 := by decide

theorem witness_NoCommandStopsTheEngine :
    (∀ ev ∈ [HostEvent.command { cmd := 0x0300, din := 0 }, .reset], ev.onBus cfgTA = true) ∧
      step { taAsked 0x0300 5 with ERR := .range } =
        .next { ta [1, 2, 3, 4] 5 with ERR := .range, resp := some ⟨.illcmd, 0⟩ } := ⟨by decide, rfl⟩

theorem witness_StepKeepsWellFormed :
    (taAsked 0x2000 0).wf = true ∧ blockAfter (step (taAsked 0x2000 0)) = some [0xA, 0xD, 3, 0xE] := by decide

theorem witness_StepKeepsTheConfiguration :
    step (taAsked 0x0000 0) = .next { ta [1, 2, 3, 4] 0 with resp := some ⟨.ok, 0⟩ } := rfl

theorem witness_FailingCommandHasNoEffect :
    exec .rds State.reset = .next { State.reset with ERR := .size, resp := some ⟨.size, 0⟩ } ∧
      step (taAsked 0x3107 0) = .next { ta [1, 2, 3, 4] 0 with ERR := .range, resp := some ⟨.range, 0⟩ } := ⟨rfl, rfl⟩

/-- A run of two commands from reset, the first of which fails. -/
theorem witness_ErrHoldsTheFirstError :
    let s := { State.reset with
      script := [.command { cmd := 0x1100, din := 0 }, .command { cmd := 0x0000, din := 0 }] }
    Sys2Proof.core.run 2 s = .next { State.reset with ERR := .size, resp := some ⟨.ok, 0⟩ } ∧
      s.ERR = .ok ∧ (∀ ev ∈ s.script.take 2, clearsErr ev = false) ∧ runCodes 2 s = [.size, .ok] :=
  ⟨rfl, rfl, by decide, rfl⟩

theorem witness_EveryCommandReportsItsTableCode :
    (1 : Idx) ≠ 0 ∧ takesIdx .sub = false ∧ takesIdx (.ldrk 0) = true ∧
      (taAsked 0x2001 0).script = .command { cmd := 0x2001, din := 0 } :: [] ∧
      Request.onBus cfgTA { cmd := 0x2001, din := 0 } = true ∧ opcodeField 0x2001 = opcodeOf .sub ∧ idxField 0x2001 = 1 := by decide

theorem witness_CommandsWriteOnlyWhatTheTableSays :
    exec .nop State.reset = .next { State.reset with resp := some ⟨.ok, 0⟩ } ∧
      writesS .nop = false ∧ writesRK .nop = false ∧ writesTK .nop = false := ⟨rfl, rfl, rfl, rfl⟩

theorem witness_StepIgnoresEarlierPortValues :
    (taAsked 0x2000 0).script = .command { cmd := 0x2000, din := 0 } :: [] := rfl

theorem witness_control_words :
    0x0001 ≤ (0x0001#16).toNat ∧ (0x00FF#16).toNat ≤ 0x00FF ∧ 0x0201 ≤ (0x0201#16).toNat ∧
      (0x02FF#16).toNat ≤ 0x02FF ∧
      (taAsked 0x0001 0).script = .command { cmd := 0x0001, din := 0 } :: [] ∧
      (taAsked 0x02FF 0).script = .command { cmd := 0x02FF, din := 0 } :: [] ∧
      (taAsked 0x0101 0).script = .command { cmd := 0x0101, din := 0 } :: [] ∧
      (taAsked 0x01FF 0).script = .command { cmd := 0x01FF, din := 0 } :: [] ∧
      Request.onBus cfgTA { cmd := 0x0101, din := 0 } = true := by decide

/-- The last entry of each file and the first index beyond it (`LoadsWriteTheDataIn`, `LoadThenReadTruncates`). -/
theorem witness_load_indices :
    (ta [1, 2, 3, 4] 0).RK.length = (ta [1, 2, 3, 4] 0).cfg.nrounds ∧
      (2 : Idx).toNat < (ta [1, 2, 3, 4] 0).cfg.nrounds ∧ (ta [1, 2, 3, 4] 0).cfg.nrounds ≤ (3 : Idx).toNat ∧
      (3 : Idx).toNat < 4 ∧ 4 ≤ (4 : Idx).toNat := by decide

/-- A block, a round key and a sub-key to read or to add (`ReadsAnswerTheRegister`, `AdditionCommands`,
`RoundCommands`, `RoundsEqualTheirLayers`). -/
theorem witness_registers :
    (ta [1, 2, 3, 4] 0).S = some [1, 2, 3, 4] ∧ (2 : Idx).toNat < (ta [1, 2, 3, 4] 0).cfg.nrounds ∧
      (ta [1, 2, 3, 4] 0).rkVal (2 : Idx).toNat = some [5, 6, 7, 8] ∧ (3 : Idx).toNat < 4 ∧
      (ta [1, 2, 3, 4] 0).tkVal (3 : Idx).toNat = some [3, 6, 9, 4] ∧
      ([1, 2, 3, 4] : Block).length = (ta [1, 2, 3, 4] 0).cfg.ncells := by decide

theorem witness_RoundsEqualTheirLayers :
    (ta [1, 2, 3, 4] 0).cfg.roundOrder = .sap ∧ (tb [3, 9]).cfg.roundOrder = .asp ∧
      (tb [3, 9]).S = some [3, 9] ∧ (tb [3, 9]).rkVal (1 : Idx).toNat = some [0xC, 3] := by decide

/-- A block that fits (`SubstitutionCommands`, `PermutationCommands`, `MatrixCommands`, `InverseOperationsUndo`,
`RoundsAreMutuallyInverse`, `HalfRoundsCancel`). -/
theorem witness_blocks_fit :
    (ta [0, 0xF, 3, 4] 0).S = some [0, 0xF, 3, 4] ∧ blockFits (ta [0, 0xF, 3, 4] 0).cfg [0, 0xF, 3, 4] = true ∧
      blockFits engineTA.cfg [0xA, 0xB, 0xC, 0xD] = true := by decide

theorem witness_CodecInverseLaw :
    1 ≤ 4 ∧ 0xFFFF < 2 ^ (4 * 4) ∧ ∀ v ∈ ([0, 0xF] : Block), v < 2 ^ 4 := by decide

theorem witness_RotateLeftMovesEveryBit : 1 ≤ 1 ∧ 0 < 1 := by decide

theorem witness_AddLaws :
    ([1, 2] : Block).length = ([3, 4] : Block).length ∧ ([3, 4] : Block).length = ([5, 6] : Block).length ∧
      1 < ([1, 2] : Block).length ∧ 1 < ([3, 4] : Block).length := by decide

theorem witness_field :
    0xF < 2 ^ engineTA.cfg.nbits ∧ 0 < 0xF ∧ 0 < 2 ^ engineTA.cfg.nbits ∧ gfmul engineTA.cfg 0 0xF = 0 := by decide

theorem witness_ValidConfigurationsHaveBijectiveTables :
    validateConfig cfgTA = .ok ∧ 0xF < 2 ^ cfgTA.nbits ∧ 3 < cfgTA.ncells := by decide +kernel

/-- The widest master keys and the narrowest too wide (`KschWritesTheChunks`, `ReflectorKeyCommands`). -/
theorem witness_master_keys :
    (ta [1, 2, 3, 4] (2 ^ 48 - 1)).din >>> cfgTA.KW = 0 ∧ (ta [1, 2, 3, 4] (2 ^ 32 - 1)).din >>> cfgTA.TKW = 0 ∧
      (ta [1, 2, 3, 4] (2 ^ 32)).din >>> cfgTA.TKW ≠ 0 ∧ 2 ^ 16 >>> cfgTD.KW ≠ 0 ∧ 2 < cfgTA.nrounds := by decide

/-- All the round keys, none of them, and the first alone in a file that holds no other (`CipherCommands`,
`CiphersEqualTheirRounds`). -/
theorem witness_HoldsRoundKeys :
    HoldsRoundKeys (ta [1, 2, 3, 4] 0) 3 [[0xA, 0xB, 0xC, 0xD], [1, 2, 3, 4], [5, 6, 7, 8]] ∧
      HoldsRoundKeys (ta [1, 2, 3, 4] 0) 0 [] ∧
      HoldsRoundKeys { ta [1, 2, 3, 4] 0 with RK := [some [0xA, 0xB, 0xC, 0xD], none, none] } 1 [[0xA, 0xB, 0xC, 0xD]] ∧
      (3 : Idx).toNat ≤ (ta [1, 2, 3, 4] 0).cfg.nrounds ∧
      (0 : Idx).toNat ≤ (ta [1, 2, 3, 4] 0).cfg.nrounds := by decide

/-- The whole tuple (`ReflectorKeyCommands`, `ReflectorCommands`, `RdecIsRelabelledRenc`). -/
theorem witness_HoldsTuple :
    HoldsTuple (ta [1, 2, 3, 4] 0)
      { k0 := [8, 0xF, 0, 1], k1 := [1, 2, 0xA, 0xB], k0p := [0xC, 7, 8, 1], k1a := [3, 6, 9, 4] } := rfl

theorem witness_DecryptInvertsEncrypt :
    BlockArg.toBlock cfgTA (.int 0xFFFF) = .ok [0xF, 0xF, 0xF, 0xF] ∧
      BlockArg.toBlock cfgTA (.cells [1, 2, 3, 4]) = .ok [1, 2, 3, 4] ∧ 2 ^ 48 - 1 < 2 ^ cfgTA.KW := by decide

theorem witness_SpnCommandsRoundTrip :
    (ta [1, 2, 3, 4] 0).wf = true ∧ (∀ r < 3, (ta [1, 2, 3, 4] 0).RKV r = true) ∧
      (3 : Idx).toNat ≤ (ta [1, 2, 3, 4] 0).cfg.nrounds := by decide

/-- The smallest instance: one cell of one bit, `W = 1`. -/
def cfgOneBit : Cfg where
  ncells := 1
  nbits := 1
  nrounds := 1
  sbox := [1, 0]
  pbox := [0]
  pboxInv := [0]
  m := [[1]]
  mInv := [[1]]
  poly := 3
  roundOrder := .asp
  diffusionInRound := false
  alpha := 1
  rhalf := 0

theorem cfgOneBit_valid : validateConfig cfgOneBit = .ok := by decide +kernel

theorem witness_ReflectorSubkeyBits :
    2 ^ 32 - 1 < 2 ^ engineTA.cfg.TKW ∧ 2 ≤ engineTA.cfg.W ∧ 3 < 2 ^ cfgOneBit.TKW ∧ cfgOneBit.W = 1 := by decide

theorem witness_RelabelIsAnInvolution : 2 ^ 32 - 1 < 2 ^ cfgTA.TKW := by decide

/-- P1, P2, a block and a tuple (`MiddleLayerIsAnInvolution`, `ReflectorDecryptInvertsEncrypt`,
`ReflectorCommandsRoundTrip`). -/
theorem witness_reflector :
    involutiveSbox engineTA.cfg = true ∧ selfInverseMatrix engineTA.cfg = true ∧
      blockFits engineTA.cfg [1, 2, 3, 4] = true ∧
      tupleFits engineTA.cfg { k0 := [8, 0xF, 0, 1], k1 := [1, 2, 0xA, 0xB], k0p := [0xC, 7, 8, 1], k1a := [3, 6, 9, 4] }
        = true ∧
      (ta [1, 2, 3, 4] 0).wf = true ∧ (∀ j < 4, (ta [1, 2, 3, 4] 0).TKV j = true) := by decide +kernel

/-- The widest operands of the macros (`SpnMacrosRealiseTheFunctions`, `ReflectorMacrosRealiseTheFunctions`,
`PartialRoundMacrosRealiseTheFunctions`). -/
theorem witness_macros :
    0xFFFF < 2 ^ State.reset.cfg.W ∧ 2 ^ 48 - 1 < 2 ^ State.reset.cfg.KW ∧ 2 ^ 32 - 1 < 2 ^ State.reset.cfg.TKW ∧
      State.reset.RK.length = State.reset.cfg.nrounds ∧ [0xABCD, 0x1234, 0xFFFF].length ≤ State.reset.cfg.nrounds ∧
      ∀ k ∈ [0xABCD, 0x1234, 0xFFFF], k < 2 ^ State.reset.cfg.W := by decide

theorem witness_EnumeratorCoversItsPositions :
    (∀ p ∈ (Enumerator.mk 4 [3, 0] true).positions, p < (Enumerator.mk 4 [3, 0] true).width) ∧
      3 < 2 ^ (Enumerator.mk 4 [3, 0] true).positions.dedup.length ∧ 1 ∉ (Enumerator.mk 4 [3, 0] true).positions ∧
      2 ∉ (Enumerator.mk 4 [3, 0] true).positions := by decide

end Sys2Proof.Tests
end

