-- ==== Sys2Proof/Proofs/Step.lean ====
section
/-! What a step and a command can do, said once: `step_cases` for the host's events (spec/00_scope.md R15), `exec_cases`
for the commands (spec/60_exceptions.md R256). -/

namespace Sys2Proof.Machine

-- one step, event by event

theorem step_idle {s : State} (hs : s.script = []) : step s = .next s.idle := by
  simp only [step, hs]

theorem step_reset {s : State} {rest : List HostEvent} (hs : s.script = .reset :: rest) :
    step s = .next (s.takeReset rest) := by
  simp only [step, hs]

theorem step_offBus {s : State} {q : Request} {rest : List HostEvent} (hs : s.script = .command q :: rest)
    (hq : q.onBus s.cfg = false) : step s = .fault .dinOffBus := by
  simp [step, hs, hq]

theorem step_illegal {s : State} {q : Request} {rest : List HostEvent} {e : DecodeError}
    (hs : s.script = .command q :: rest) (hq : q.onBus s.cfg = true) (hd : decode q.cmd = .error e) :
    step s = .next ((s.accept q rest).raise .illcmd) := by
  simp only [step, hs, hq, hd, if_true]

theorem step_decoded {s : State} {q : Request} {rest : List HostEvent} {i : Instr}
    (hs : s.script = .command q :: rest) (hq : q.onBus s.cfg = true) (hd : decode q.cmd = .ok i) :
    step s = exec i (s.accept q rest) := by
  simp only [step, hs, hq, hd, if_true]

/-- Everything a step that answers a next state can be. -/
theorem step_cases {s t : State} (h : step s = .next t) :
    (s.script = [] ∧ t = s.idle) ∨
    (∃ rest, s.script = .reset :: rest ∧ t = s.takeReset rest) ∨
    (∃ q rest e, s.script = .command q :: rest ∧ q.onBus s.cfg = true ∧ decode q.cmd = .error e ∧
      t = (s.accept q rest).raise .illcmd) ∨
    (∃ q rest i, s.script = .command q :: rest ∧ q.onBus s.cfg = true ∧ decode q.cmd = .ok i ∧
      exec i (s.accept q rest) = .next t) := by
  rcases hs : s.script with _ | ⟨q | _, rest⟩
  · rw [step_idle hs] at h
    cases h
    exact .inl ⟨rfl, rfl⟩
  · cases hq : q.onBus s.cfg with
    | false => rw [step_offBus hs hq] at h; cases h
    | true =>
      cases hd : decode q.cmd with
      | error e =>
        rw [step_illegal hs hq hd] at h
        cases h
        exact .inr (.inr (.inl ⟨q, rest, e, rfl, hq, hd, rfl⟩))
      | ok i =>
        rw [step_decoded hs hq hd] at h
        exact .inr (.inr (.inr ⟨q, rest, i, rfl, hq, hd, h⟩))
  · rw [step_reset hs] at h
    cases h
    exact .inr (.inl ⟨rest, rfl, rfl⟩)

-- what a successful command writes

/-- `Written s t`: `t` is `s` after at most one of the model's named writes, the only ones a command makes
(spec/10_state.md R21 to R28). -/
inductive Written (s : State) : State → Prop where
  | nothing : Written s s
  | clearErr : Written s s.clearErr
  | discard : Written s s.discard
  | writeS (x : Block) : Written s (s.writeS x)
  | writeRk (r : Nat) (k : Block) : Written s (s.writeRk r k)
  | writeRks (ks : List Block) : Written s (s.writeRks ks)
  | writeTk (j : Nat) (k : Block) : Written s (s.writeTk j k)
  | writeTuple (t : KeyTuple Block) : Written s (s.writeTuple t)

theorem Written.engine_eq {s t : State} (h : Written s t) : t.engine = s.engine := by
  cases h <;> simp

/-- A result whose registers, when it is a success, are those of `s` after one named write. -/
def Writes (s : State) (r : Result) : Prop := ∀ t d, r = .ok (t, d) → Written s t

theorem Writes.ok {s t : State} {d : Nat} (h : Written s t) : Writes s (.ok (t, d)) := by
  rintro _ _ ⟨⟩
  exact h

/-- A check or a read in front of a result adds no write to it. -/
theorem Writes.bind {s : State} {α : Type} {r : Except ErrCode α} {f : α → Result}
    (h : ∀ a, Writes s (f a)) : Writes s (r >>= f) := by
  intro t d hr
  obtain ⟨a, -, ha⟩ := result_bind_eq_ok.mp hr
  exact h a t d ha

theorem transform_writes (s : State) (f : Block → Block) : Writes s (s.transform f) :=
  .bind fun _ => .ok (.writeS _)

theorem transformRk_writes (s : State) (r : Idx) (f : Block → Block → Block) : Writes s (s.transformRk r f) :=
  .bind fun _ => .bind fun _ => .bind fun _ => .ok (.writeS _)

theorem transformTk_writes (s : State) (j : Idx) (f : Block → Block → Block) : Writes s (s.transformTk j f) :=
  .bind fun _ => .bind fun _ => .bind fun _ => .ok (.writeS _)

theorem transformRks_writes (s : State) (n : Nat) (f : Block → List Block → Block) :
    Writes s (s.transformRks n f) :=
  .bind fun _ => .bind fun _ => .ok (.writeS _)

theorem transformTuple_writes (s : State) (f : Block → KeyTuple Block → Block) :
    Writes s (s.transformTuple f) :=
  .bind fun _ => .bind fun _ => .ok (.writeS _)

/-- Every command completes one result, computed before anything is written (R256). -/
theorem exec_commits (i : Instr) (s : State) : ∃ r, exec i s = s.commit r ∧ Writes s r := by
  cases i with
  | nop => exact ⟨_, rfl, .ok .nothing⟩
  | clrerr => exact ⟨_, rfl, .ok .clearErr⟩
  | clr => exact ⟨_, rfl, .ok .discard⟩
  | lds => exact ⟨_, rfl, .ok (.writeS _)⟩
  | rds => exact ⟨_, rfl, .bind fun _ => .ok .nothing⟩
  | ldrk _ => exact ⟨_, rfl, .bind fun _ => .ok (.writeRk _ _)⟩
  | ldtk _ => exact ⟨_, rfl, .bind fun _ => .ok (.writeTk _ _)⟩
  | rdrk _ | rdtk _ => exact ⟨_, rfl, .bind fun _ => .bind fun _ => .ok .nothing⟩
  | sub | subi | prm | prmi | mmul | mmuli | addd | mid => exact ⟨_, rfl, transform_writes _ _⟩
  | addrk _ | rndf _ | rndi _ => exact ⟨_, rfl, transformRk_writes _ _ _⟩
  | addtk _ | rndft _ | rndit _ => exact ⟨_, rfl, transformTk_writes _ _ _⟩
  | enc | dec => exact ⟨_, rfl, transformRks_writes _ _ _⟩
  | encr _ | decr _ => exact ⟨_, rfl, .bind fun _ => transformRks_writes _ _ _⟩
  | renc | rdec => exact ⟨_, rfl, transformTuple_writes _ _⟩
  | ksch => exact ⟨_, rfl, .bind fun _ => .ok (.writeRks _)⟩
  | rksch | rkswp => exact ⟨_, rfl, .bind fun _ => .ok (.writeTuple _)⟩

/-- Everything a command can do: raise an error on the state as it was, or make one write and answer. -/
theorem exec_cases {i : Instr} {s u : State} (h : exec i s = .next u) :
    (∃ e, u = s.raise e) ∨ ∃ t d, Written s t ∧ u = t.answer d := by
  obtain ⟨r, hexec, hwrites⟩ := exec_commits i s
  rcases State.commit_cases (hexec.symm.trans h) with ⟨e, -, hu⟩ | ⟨t, d, hr, hu⟩
  · exact .inl ⟨e, hu⟩
  · exact .inr ⟨t, d, hwrites t d hr, hu⟩

theorem exec_engine {i : Instr} {s u : State} (h : exec i s = .next u) : u.engine = s.engine := by
  rcases exec_cases h with ⟨e, rfl⟩ | ⟨t, d, hw, rfl⟩
  · exact State.raise_engine s e
  · exact (State.answer_engine t d).trans hw.engine_eq

/-- Settles O6: the decoded branch of `step`, with `accept` as the record it stands for. -/
theorem stepRunsTheDecodedCommand : Obligations.StepRunsTheDecodedCommand :=
  fun _ _ _ _ hs hq hd => step_decoded hs hq hd

/-- Settles O12, event by event. -/
theorem stepKeepsTheConfiguration : Obligations.StepKeepsTheConfiguration := by
  intro s t h
  rcases step_cases h with ⟨-, rfl⟩ | ⟨rest, -, rfl⟩ | ⟨q, rest, _, -, -, -, rfl⟩ | ⟨q, rest, _, -, -, -, hexec⟩
  · exact State.idle_engine s
  · exact State.takeReset_engine s rest
  · exact State.accept_engine s q rest
  · exact (exec_engine hexec).trans (State.accept_engine s q rest)

end Sys2Proof.Machine
end

