-- ==== Sys2Proof/Proofs/Tables.lean ====
section
/-! The tables of a valid configuration as bijections (spec/00_scope.md R9, V1 to V3). -/

namespace Sys2Proof.Machine

/-- A table that meets every value has no room to meet one twice: it is a rearrangement of `[0, n)`. -/
theorem isPermutation_perm {n : Nat} {t : List Nat} (h : isPermutation n t = true) : t.Perm (List.range n) := by
  simp only [isPermutation, Bool.and_eq_true, beq_iff_eq, List.all_eq_true, List.contains_iff_mem] at h
  obtain ⟨⟨hlen, -⟩, hall⟩ := h
  have hsub : (List.range n).Subperm t := List.subperm_of_subset List.nodup_range hall
  exact (hsub.perm_of_length_le (by simp [hlen])).symm

theorem isPermutation_exists_getD {n v : Nat} {t : List Nat} (h : isPermutation n t = true) (hv : v < n) :
    ∃ u < n, t.getD u 0 = v := by
  have hp := isPermutation_perm h
  obtain ⟨u, hu, rfl⟩ := List.getElem_of_mem (hp.mem_iff.mpr (List.mem_range.mpr hv))
  exact ⟨u, by simpa [hp.length_eq] using hu, by simp [List.getD, hu]⟩

theorem isPermutation_getD_inj {n u v : Nat} {t : List Nat} (h : isPermutation n t = true)
    (hu : u < n) (hv : v < n) (heq : t.getD u 0 = t.getD v 0) : u = v := by
  have hp := isPermutation_perm h
  have hlen : t.length = n := by simpa using hp.length_eq
  have hnodup : t.Nodup := hp.nodup_iff.mpr List.nodup_range
  rw [← hlen] at hu hv
  exact (hnodup.getElem_inj_iff (hi := hu) (hj := hv)).mp (by simpa [List.getD, hu, hv] using heq)

/-- V3 as it is checked. -/
theorem Engine.pboxInv_pbox (e : Engine) {i : Nat} (hi : i < e.cfg.ncells) :
    e.cfg.pboxInv.getD (e.cfg.pbox.getD i 0) 0 = i := by
  have h := e.tablesOk
  simp only [Machine.tablesOk, pboxInverseOk, Bool.and_eq_true, List.all_eq_true, List.mem_range, beq_iff_eq] at h
  obtain ⟨⟨⟨⟨⟨-, hinv⟩, -⟩, -⟩, -⟩, -⟩ := h
  exact hinv i hi

/-- V3 in the order that is not checked: every position is an entry of `PBOX`, so a left inverse is a right one. -/
theorem Engine.pbox_pboxInv (e : Engine) {i : Nat} (hi : i < e.cfg.ncells) :
    e.cfg.pbox.getD (e.cfg.pboxInv.getD i 0) 0 = i := by
  obtain ⟨u, hu, rfl⟩ := isPermutation_exists_getD e.pboxPerm hi
  rw [e.pboxInv_pbox hu]

/-- Settles O35, for the engine that the accepted configuration makes. -/
theorem validConfigurationsHaveBijectiveTables : Obligations.ValidConfigurationsHaveBijectiveTables := by
  intro c hvalid
  let e : Engine := ⟨c, hvalid⟩
  refine ⟨fun v hv => ?_, fun i hi => ⟨e.pboxInv_pbox hi, e.pbox_pboxInv hi⟩⟩
  obtain ⟨u, hu, huv⟩ := isPermutation_exists_getD e.sboxPerm hv
  exact ⟨u, ⟨hu, huv⟩, fun u' hu' huv' => isPermutation_getD_inj e.sboxPerm hu' hu (huv'.trans huv.symm)⟩

end Sys2Proof.Machine
end

