-- ==== Sys2Proof/Proofs/Shapes.lean ====
section
/-! The shape of what the commands compute (spec/41_field_ops.md R107): whole ciphers and key schedules keep blocks in
the engine's shape, and the integer of a block fits `W` bits. -/

namespace Sys2Proof.Machine

-- the integer of a block

/-- Horner's rule on cells of `b` bits, from any value already collected. -/
theorem horner_lt {b : Nat} (x : Block) (hx : ∀ v ∈ x, v < 2 ^ b) (a : Nat) :
    x.foldl (fun v cell => v * 2 ^ b + cell) a < (a + 1) * 2 ^ (b * x.length) := by
  induction x generalizing a with
  | nil => simp
  | cons v x ih =>
    have hstep : a * 2 ^ b + v + 1 ≤ (a + 1) * 2 ^ b := by
      rw [Nat.add_one_mul]
      exact Nat.add_le_add_left (hx v (by simp)) _
    calc (v :: x).foldl (fun v cell => v * 2 ^ b + cell) a
        < (a * 2 ^ b + v + 1) * 2 ^ (b * x.length) := ih (fun w hw => hx w (by simp [hw])) _
      _ ≤ ((a + 1) * 2 ^ b) * 2 ^ (b * x.length) := Nat.mul_le_mul_right _ hstep
      _ = (a + 1) * 2 ^ (b * (v :: x).length) := by rw [List.length_cons, Nat.mul_succ, Nat.pow_add]; ring

theorem cellsToInt_lt {c : Cfg} {x : Block} (hx : blockFits c x = true) : cellsToInt x c.nbits < 2 ^ c.W := by
  obtain ⟨hlen, hcells⟩ := blockFits_iff.mp hx
  have h := horner_lt x hcells 0
  rwa [hlen, Nat.zero_add, Nat.one_mul, Nat.mul_comm] at h

-- the SPN cipher

theorem foldl_fits {c : Cfg} {f : Block → Block → Block} {ks : List Block} {x : Block}
    (hf : ∀ x k, blockFits c x = true → blockFits c k = true → blockFits c (f x k) = true)
    (hks : ∀ k ∈ ks, blockFits c k = true) (hx : blockFits c x = true) : blockFits c (ks.foldl f x) = true := by
  induction ks generalizing x with
  | nil => exact hx
  | cons k ks ih => exact ih (fun k' hk' => hks k' (by simp [hk'])) (hf x k hx (hks k (by simp)))

theorem encryptRounds_fits (e : Engine) {x : Block} {ks : List Block} (n : Nat) (hx : blockFits e.cfg x = true)
    (hks : ∀ k ∈ ks, blockFits e.cfg k = true) : blockFits e.cfg (encryptRounds e.cfg x ks n) = true :=
  foldl_fits (fun _ _ => forwardRound_fits e) (fun k hk => hks k (List.mem_of_mem_take hk)) hx

theorem decryptRounds_fits (e : Engine) {x : Block} {ks : List Block} (n : Nat) (hx : blockFits e.cfg x = true)
    (hks : ∀ k ∈ ks, blockFits e.cfg k = true) : blockFits e.cfg (decryptRounds e.cfg x ks n) = true :=
  foldl_fits (fun _ _ => inverseRound_fits e)
    (fun k hk => hks k (List.mem_of_mem_take (List.mem_reverse.mp hk))) hx

theorem keySchedule_length (c : Cfg) (mk : Nat) : (keySchedule c mk).length = c.nrounds := by
  simp [keySchedule]

theorem keySchedule_fits (c : Cfg) (mk : Nat) : ∀ k ∈ keySchedule c mk, blockFits c k = true := by
  intro k hk
  obtain ⟨r, -, rfl⟩ := List.mem_map.mp hk
  exact intToCells_fits c _

-- the reflector cipher

theorem tupleFits_iff {c : Cfg} {t : KeyTuple Block} :
    tupleFits c t = true ↔ blockFits c t.k0 = true ∧ blockFits c t.k1 = true ∧ blockFits c t.k0p = true ∧
      blockFits c t.k1a = true := by
  simp [tupleFits, and_assoc]

theorem reflectorKeySchedule_fits (c : Cfg) (mk : Nat) : tupleFits c (reflectorKeySchedule c mk) = true :=
  tupleFits_iff.mpr ⟨intToCells_fits c _, intToCells_fits c _, intToCells_fits c _, intToCells_fits c _⟩

theorem relabel_fits {c : Cfg} {t : KeyTuple Block} (ht : tupleFits c t = true) : tupleFits c (relabel t) = true := by
  obtain ⟨h0, h1, h0p, h1a⟩ := tupleFits_iff.mp ht
  exact tupleFits_iff.mpr ⟨h0p, h1a, h0, h1⟩

theorem reflectorEncryptT_fits (e : Engine) {x : Block} {t : KeyTuple Block}
    (ht : tupleFits e.cfg t = true) : blockFits e.cfg (reflectorEncryptT e.cfg x t) = true := by
  obtain ⟨-, -, h0p, h1a⟩ := tupleFits_iff.mp ht
  exact add_fits (add_fits (inverseHalf_fits e h1a _ (middleLayer_fits e)) h1a) h0p

end Sys2Proof.Machine
end

