-- ==== Sys2Proof/Proofs/Effects.lean ====
section
/-! What every command can do, said once and with the shapes: the write it may make by R34's columns (spec/10_state.md),
the codes it may raise (spec/60_exceptions.md R263), and the width of what it writes and answers. -/

namespace Sys2Proof.Machine

-- registers in the engine's shape

/-- The part of `State.wf` that speaks of the registers (R21, R23, R25). -/
structure RegistersFit (c : Cfg) (S : Option Block) (RK : List (Option Block)) (TK : KeyTuple (Option Block)) :
    Prop where
  S_fits : regFits c S = true
  RK_length : RK.length = c.nrounds
  RK_fits : ∀ o ∈ RK, regFits c o = true
  TK_fits : ∀ j, regFits c (tupleEntry TK j) = true

/-- `S`, `RK` and `TK` have the shape of the state's own engine. -/
abbrev State.Fits (s : State) : Prop := RegistersFit s.cfg s.S s.RK s.TK

theorem tupleEntry_fits_iff {c : Cfg} {t : KeyTuple (Option Block)} :
    (∀ j, regFits c (tupleEntry t j) = true) ↔
      regFits c t.k0 = true ∧ regFits c t.k1 = true ∧ regFits c t.k0p = true ∧ regFits c t.k1a = true := by
  refine ⟨fun h => ⟨h 0, h 1, h 2, h 3⟩, fun ⟨h0, h1, h0p, h1a⟩ j => ?_⟩
  unfold tupleEntry
  split
  · exact h0
  · exact h1
  · exact h0p
  · exact h1a
  · rfl

theorem State.wf_iff {s : State} :
    s.wf = true ↔ s.Fits ∧ produced s.ERR = true ∧ respFits s.cfg s.resp = true := by
  simp only [State.wf, Bool.and_eq_true, beq_iff_eq, List.all_eq_true]
  constructor
  · rintro ⟨⟨⟨⟨hS, hlen, hRK⟩, ⟨⟨h0, h1⟩, h0p⟩, h1a⟩, hERR⟩, hresp⟩
    exact ⟨⟨hS, hlen, hRK, tupleEntry_fits_iff.mpr ⟨h0, h1, h0p, h1a⟩⟩, hERR, hresp⟩
  · rintro ⟨⟨hS, hlen, hRK, hTK⟩, hERR, hresp⟩
    obtain ⟨h0, h1, h0p, h1a⟩ := tupleEntry_fits_iff.mp hTK
    exact ⟨⟨⟨⟨hS, hlen, hRK⟩, ⟨⟨h0, h1⟩, h0p⟩, h1a⟩, hERR⟩, hresp⟩

/-- Registers without a value fit every engine. -/
theorem registersFit_empty (c : Cfg) :
    RegistersFit c none (List.replicate c.nrounds none) { k0 := none, k1 := none, k0p := none, k1a := none } where
  S_fits := rfl
  RK_length := List.length_replicate
  RK_fits o ho := by rw [List.eq_of_mem_replicate ho]; rfl
  TK_fits := tupleEntry_fits_iff.mpr ⟨rfl, rfl, rfl, rfl⟩

-- what is read from registers that fit

theorem State.Fits.readS {s : State} (h : s.Fits) {x : Block} (hx : s.readS = .ok x) : blockFits s.cfg x = true := by
  have hS := h.S_fits
  rwa [State.readS_eq_ok.mp hx] at hS

theorem State.Fits.rkVal {s : State} (h : s.Fits) {r : Nat} {k : Block} (hk : s.rkVal r = some k) :
    blockFits s.cfg k = true := by
  have hmem : some k ∈ s.RK := by
    rw [State.rkVal, List.getD_eq_getElem?_getD, Option.getD_eq_iff] at hk
    rcases hk with hk | ⟨-, hk⟩
    · exact List.mem_of_getElem? hk
    · cases hk
  exact h.RK_fits _ hmem

theorem State.Fits.readRk {s : State} (h : s.Fits) {r : Nat} {k : Block} (hk : s.readRk r = .ok k) :
    blockFits s.cfg k = true :=
  h.rkVal (State.readRk_eq_ok.mp hk)

theorem State.Fits.readTk {s : State} (h : s.Fits) {j : Nat} {k : Block} (hk : s.readTk j = .ok k) :
    blockFits s.cfg k = true := by
  have hTK := h.TK_fits j
  rwa [show tupleEntry s.TK j = some k from State.readTk_eq_ok.mp hk] at hTK

theorem State.Fits.readRks {s : State} (h : s.Fits) {n : Nat} {ks : List Block} (hks : s.readRks n = .ok ks) :
    ∀ k ∈ ks, blockFits s.cfg k = true := by
  intro k hk
  have hmem : some k ∈ (List.range n).map s.rkVal :=
    State.readRks_eq_ok.mp hks ▸ List.mem_map_of_mem hk
  obtain ⟨r, -, hr⟩ := List.mem_map.mp hmem
  exact h.rkVal hr

theorem State.Fits.readTuple {s : State} (h : s.Fits) {t : KeyTuple Block} (ht : s.readTuple = .ok t) :
    tupleFits s.cfg t = true := by
  have hTK := tupleEntry_fits_iff.mp h.TK_fits
  rw [State.readTuple_eq_ok.mp ht] at hTK
  exact tupleFits_iff.mpr hTK

theorem dinBlock_fits (s : State) : blockFits s.cfg (dinBlock s) = true := intToCells_fits s.cfg _

-- what a check or a read can raise

/-- The only codes a command itself raises are `E_SIZE` and `E_RANGE` (R263). -/
def Raises {α : Type} (r : Except ErrCode α) : Prop := ∀ e, r = .error e → e = .size ∨ e = .range

theorem require_raises {b : Bool} {e : ErrCode} (he : e = .size ∨ e = .range) : Raises (require b e) := by
  rintro _ h
  cases b with
  | true => cases h
  | false => cases h; exact he

theorem rkIndex_raises (s : State) (r : Idx) : Raises (rkIndex s r) := require_raises (.inr rfl)

theorem tkIndex_raises (j : Idx) : Raises (tkIndex j) := require_raises (.inr rfl)

theorem roundCount_raises (s : State) (n : Idx) : Raises (roundCount s n) := require_raises (.inr rfl)

theorem dinKey_raises (s : State) (width : Nat) : Raises (dinKey s width) := by
  intro e h
  by_cases hw : s.din >>> width = 0
  · rw [dinKey_of_fits hw] at h; cases h
  · rw [dinKey_of_wide hw] at h; cases h; exact .inl rfl

theorem readS_raises (s : State) : Raises s.readS := fun _ h => .inl (State.readS_eq_error.mp h).2

theorem readRk_raises (s : State) (r : Nat) : Raises (s.readRk r) := fun _ h => .inl (State.readRk_eq_error.mp h).2

theorem readTk_raises (s : State) (j : Nat) : Raises (s.readTk j) := fun _ h => .inl (State.readTk_eq_error.mp h).2

theorem readRks_raises (s : State) (n : Nat) : Raises (s.readRks n) := by
  intro e h
  unfold State.readRks at h
  split at h
  · cases h
  · cases h; exact .inl rfl

theorem readTuple_raises (s : State) : Raises s.readTuple := by
  intro e h
  unfold State.readTuple at h
  split at h
  · cases h
  · cases h; exact .inl rfl

theorem rkIndex_lt {s : State} {r : Idx} {u : Unit} (h : rkIndex s r = .ok u) : r.toNat < s.cfg.nrounds :=
  of_decide_eq_true (require_eq_ok.mp h)

theorem tkIndex_lt {j : Idx} {u : Unit} (h : tkIndex j = .ok u) : j.toNat < 4 :=
  of_decide_eq_true (require_eq_ok.mp h)

-- one write, one answer

/-- The commands that answer the contents of a register (R222, R224, R226). -/
def IsRead (i : Instr) : Prop := i = .rds ∨ (∃ r, i = .rdrk r) ∨ ∃ j, i = .rdtk j

/-- `Effect i s t d`: what `i` may do on `s` when it succeeds, `t` being the registers it leaves and `d` its `dout`. It
makes at most one named write, which R34's table lists for it; what it writes fits the engine when the registers
did; and only a read answers with anything but 0. -/
inductive Effect (i : Instr) (s : State) : State → Nat → Prop where
  | nothing : Effect i s s 0
  | clearErr : Effect i s s.clearErr 0
  | discard (hS : writesS i = true) (hRK : writesRK i = true) (hTK : writesTK i = true) : Effect i s s.discard 0
  | writeS (hi : writesS i = true) (x : Block) (hx : s.Fits → blockFits s.cfg x = true) : Effect i s (s.writeS x) 0
  | writeRk (hi : writesRK i = true) (r : Nat) (hr : r < s.cfg.nrounds) (k : Block)
      (hk : blockFits s.cfg k = true) : Effect i s (s.writeRk r k) 0
  | writeRks (hi : writesRK i = true) (ks : List Block) (hlen : ks.length = s.cfg.nrounds)
      (hks : ∀ k ∈ ks, blockFits s.cfg k = true) : Effect i s (s.writeRks ks) 0
  | writeTk (hi : writesTK i = true) (j : Nat) (hj : j < 4) (k : Block)
      (hk : blockFits s.cfg k = true) : Effect i s (s.writeTk j k) 0
  | writeTuple (hi : writesTK i = true) (t : KeyTuple Block) (ht : s.Fits → tupleFits s.cfg t = true) :
      Effect i s (s.writeTuple t) 0
  | read (hi : IsRead i) (d : Nat) (hd : s.Fits → d < 2 ^ s.cfg.W) : Effect i s s d

/-- A result that raises only the codes of a command and otherwise has an `Effect`. -/
def Does (i : Instr) (s : State) (r : Result) : Prop := Raises r ∧ ∀ t d, r = .ok (t, d) → Effect i s t d

theorem Does.ok {i : Instr} {s t : State} {d : Nat} (h : Effect i s t d) : Does i s (.ok (t, d)) := by
  refine ⟨fun _ he => (by cases he), ?_⟩
  rintro _ _ ⟨⟩
  exact h

/-- A check or a read in front of a result: it may raise, and what follows knows that it succeeded. -/
theorem Does.bind {i : Instr} {s : State} {α : Type} {r : Except ErrCode α} {f : α → Result} (hr : Raises r)
    (hf : ∀ a, r = .ok a → Does i s (f a)) : Does i s (r >>= f) := by
  cases r with
  | error e =>
    refine ⟨?_, fun _ _ h => (by cases h)⟩
    rintro _ ⟨⟩
    exact hr e rfl
  | ok a => exact hf a rfl

theorem transform_does {i : Instr} {s : State} {f : Block → Block} (hi : writesS i = true)
    (hf : ∀ x, blockFits s.cfg x = true → blockFits s.cfg (f x) = true) : Does i s (s.transform f) :=
  .bind (readS_raises s) fun x hx => .ok (.writeS hi _ fun h => hf x (h.readS hx))

theorem transformRk_does {i : Instr} {s : State} (r : Idx) {f : Block → Block → Block} (hi : writesS i = true)
    (hf : ∀ x k, blockFits s.cfg x = true → blockFits s.cfg k = true → blockFits s.cfg (f x k) = true) :
    Does i s (s.transformRk r f) :=
  .bind (rkIndex_raises s r) fun _ _ => .bind (readS_raises s) fun x hx => .bind (readRk_raises s _) fun k hk =>
    .ok (.writeS hi _ fun h => hf x k (h.readS hx) (h.readRk hk))

theorem transformTk_does {i : Instr} {s : State} (j : Idx) {f : Block → Block → Block} (hi : writesS i = true)
    (hf : ∀ x k, blockFits s.cfg x = true → blockFits s.cfg k = true → blockFits s.cfg (f x k) = true) :
    Does i s (s.transformTk j f) :=
  .bind (tkIndex_raises j) fun _ _ => .bind (readS_raises s) fun x hx => .bind (readTk_raises s _) fun k hk =>
    .ok (.writeS hi _ fun h => hf x k (h.readS hx) (h.readTk hk))

theorem transformRks_does {i : Instr} {s : State} (n : Nat) {f : Block → List Block → Block} (hi : writesS i = true)
    (hf : ∀ x ks, blockFits s.cfg x = true → (∀ k ∈ ks, blockFits s.cfg k = true) →
      blockFits s.cfg (f x ks) = true) :
    Does i s (s.transformRks n f) :=
  .bind (readS_raises s) fun x hx => .bind (readRks_raises s n) fun ks hks =>
    .ok (.writeS hi _ fun h => hf x ks (h.readS hx) (h.readRks hks))

theorem transformTuple_does {i : Instr} {s : State} {f : Block → KeyTuple Block → Block} (hi : writesS i = true)
    (hf : ∀ x t, blockFits s.cfg x = true → tupleFits s.cfg t = true → blockFits s.cfg (f x t) = true) :
    Does i s (s.transformTuple f) :=
  .bind (readS_raises s) fun x hx => .bind (readTuple_raises s) fun t ht =>
    .ok (.writeS hi _ fun h => hf x t (h.readS hx) (h.readTuple ht))

/-- Every command completes one result, and its effect is one that R34's table gives it. -/
theorem exec_does (i : Instr) (s : State) : ∃ r, exec i s = s.commit r ∧ Does i s r := by
  cases i with
  | nop => exact ⟨_, rfl, .ok .nothing⟩
  | clrerr => exact ⟨_, rfl, .ok .clearErr⟩
  | clr => exact ⟨_, rfl, .ok (.discard rfl rfl rfl)⟩
  | lds => exact ⟨_, rfl, .ok (.writeS rfl _ fun _ => dinBlock_fits s)⟩
  | rds => exact ⟨_, rfl, .bind (readS_raises s) fun _ hx =>
      .ok (.read (.inl rfl) _ fun h => cellsToInt_lt (h.readS hx))⟩
  | ldrk r => exact ⟨_, rfl, .bind (rkIndex_raises s r) fun _ hr =>
      .ok (.writeRk rfl _ (rkIndex_lt hr) _ (dinBlock_fits s))⟩
  | rdrk r => exact ⟨_, rfl, .bind (rkIndex_raises s r) fun _ _ => .bind (readRk_raises s _) fun _ hk =>
      .ok (.read (.inr (.inl ⟨r, rfl⟩)) _ fun h => cellsToInt_lt (h.readRk hk))⟩
  | ldtk j => exact ⟨_, rfl, .bind (tkIndex_raises j) fun _ hj =>
      .ok (.writeTk rfl _ (tkIndex_lt hj) _ (dinBlock_fits s))⟩
  | rdtk j => exact ⟨_, rfl, .bind (tkIndex_raises j) fun _ _ => .bind (readTk_raises s _) fun _ hk =>
      .ok (.read (.inr (.inr ⟨j, rfl⟩)) _ fun h => cellsToInt_lt (h.readTk hk))⟩
  | sub => exact ⟨_, rfl, transform_does rfl fun _ => substituteSbox_fits s.engine⟩
  | subi => exact ⟨_, rfl, transform_does rfl fun _ => substituteSboxInv_fits s.engine⟩
  | prm => exact ⟨_, rfl, transform_does rfl fun _ hx => permute_fits hx s.engine.pboxPerm⟩
  | prmi => exact ⟨_, rfl, transform_does rfl fun _ hx => permute_fits hx s.engine.pboxInvPerm⟩
  | mmul => exact ⟨_, rfl, transform_does rfl fun x _ => matrixMultiply_fits s.engine x s.engine.mFits⟩
  | mmuli => exact ⟨_, rfl, transform_does rfl fun x _ => matrixMultiply_fits s.engine x s.engine.mInvFits⟩
  | addrk r => exact ⟨_, rfl, transformRk_does r rfl fun _ _ => add_fits⟩
  | addtk j => exact ⟨_, rfl, transformTk_does j rfl fun _ _ => add_fits⟩
  | addd => exact ⟨_, rfl, transform_does rfl fun _ hx => add_fits hx (dinBlock_fits s)⟩
  | ksch => exact ⟨_, rfl, .bind (dinKey_raises s _) fun mk _ =>
      .ok (.writeRks rfl _ (keySchedule_length s.cfg mk) (keySchedule_fits s.cfg mk))⟩
  | rndf r => exact ⟨_, rfl, transformRk_does r rfl fun _ _ => forwardRound_fits s.engine⟩
  | rndi r => exact ⟨_, rfl, transformRk_does r rfl fun _ _ => inverseRound_fits s.engine⟩
  | enc => exact ⟨_, rfl, transformRks_does _ rfl fun _ _ => encryptRounds_fits s.engine _⟩
  | dec => exact ⟨_, rfl, transformRks_does _ rfl fun _ _ => decryptRounds_fits s.engine _⟩
  | encr n => exact ⟨_, rfl, .bind (roundCount_raises s n) fun _ _ =>
      transformRks_does _ rfl fun _ _ => encryptRounds_fits s.engine _⟩
  | decr n => exact ⟨_, rfl, .bind (roundCount_raises s n) fun _ _ =>
      transformRks_does _ rfl fun _ _ => decryptRounds_fits s.engine _⟩
  | rksch => exact ⟨_, rfl, .bind (dinKey_raises s _) fun mk _ =>
      .ok (.writeTuple rfl _ fun _ => reflectorKeySchedule_fits s.cfg mk)⟩
  | rkswp => exact ⟨_, rfl, .bind (readTuple_raises s) fun _ ht =>
      .ok (.writeTuple rfl _ fun h => relabel_fits (h.readTuple ht))⟩
  | rndft j => exact ⟨_, rfl, transformTk_does j rfl fun _ _ => forwardRound_fits s.engine⟩
  | rndit j => exact ⟨_, rfl, transformTk_does j rfl fun _ _ => inverseRound_fits s.engine⟩
  | mid => exact ⟨_, rfl, transform_does rfl fun _ _ => middleLayer_fits s.engine⟩
  | renc => exact ⟨_, rfl, transformTuple_does rfl fun _ _ _ => reflectorEncryptT_fits s.engine⟩
  | rdec => exact ⟨_, rfl,
      transformTuple_does rfl fun _ _ _ ht => reflectorEncryptT_fits s.engine (relabel_fits ht)⟩

/-- `exec_cases` with the code raised and the write made: `E_SIZE` or `E_RANGE` on the state as it was, or an effect
and its answer. -/
theorem exec_effect {i : Instr} {s u : State} (h : exec i s = .next u) :
    (∃ e, (e = .size ∨ e = .range) ∧ u = s.raise e) ∨ ∃ t d, Effect i s t d ∧ u = t.answer d := by
  obtain ⟨r, hexec, hraises, heffect⟩ := exec_does i s
  rcases State.commit_cases (hexec.symm.trans h) with ⟨e, hr, hu⟩ | ⟨t, d, hr, hu⟩
  · exact .inl ⟨e, hraises e hr, hu⟩
  · exact .inr ⟨t, d, heffect t d hr, hu⟩

-- what an effect leaves alone

theorem Effect.written {i : Instr} {s t : State} {d : Nat} (h : Effect i s t d) : Written s t := by
  cases h with
  | nothing | read => exact .nothing
  | clearErr => exact .clearErr
  | discard => exact .discard
  | writeS => exact .writeS _
  | writeRk => exact .writeRk _ _
  | writeRks => exact .writeRks _
  | writeTk => exact .writeTk _ _
  | writeTuple => exact .writeTuple _

theorem Written.script_eq {s t : State} (h : Written s t) : t.script = s.script := by
  cases h <;> simp

theorem Written.din_eq {s t : State} (h : Written s t) : t.din = s.din := by
  cases h <;> simp

theorem Written.ERR_eq {s t : State} (h : Written s t) : t.ERR = s.ERR ∨ t.ERR = .ok := by
  cases h <;> simp

section
variable {i : Instr} {s t : State} {d : Nat}

theorem Effect.S_eq (h : Effect i s t d) (hi : writesS i = false) : t.S = s.S := by
  cases h with
  | discard hS _ _ | writeS hS _ _ => simp [hS] at hi
  | writeTk => exact State.writeTk_S ..
  | _ => rfl

theorem Effect.RK_eq (h : Effect i s t d) (hi : writesRK i = false) : t.RK = s.RK := by
  cases h with
  | discard _ hRK _ | writeRk hRK _ _ _ _ | writeRks hRK _ _ _ => simp [hRK] at hi
  | writeTk => exact State.writeTk_RK ..
  | _ => rfl

theorem Effect.TK_eq (h : Effect i s t d) (hi : writesTK i = false) : t.TK = s.TK := by
  cases h with
  | discard _ _ hTK | writeTk hTK _ _ _ _ | writeTuple hTK _ _ => simp [hTK] at hi
  | _ => rfl

theorem Effect.dout_eq_zero (h : Effect i s t d) (hi : ¬ IsRead i) : d = 0 := by
  cases h with
  | read hread _ _ => exact absurd hread hi
  | _ => rfl

-- what an effect keeps

/-- An effect leaves the registers in the engine's shape. -/
theorem Effect.fits (h : Effect i s t d) (hs : s.Fits) : t.Fits := by
  cases h with
  | nothing | clearErr | read _ _ _ => exact hs
  | discard _ _ _ => exact registersFit_empty s.cfg
  | writeS _ x hx => exact { hs with S_fits := hx hs }
  | writeRk _ r _ k hk =>
    refine { hs with RK_length := (List.length_set ..).trans hs.RK_length, RK_fits := fun o ho => ?_ }
    rcases List.mem_or_eq_of_mem_set ho with ho | rfl
    · exact hs.RK_fits o ho
    · exact hk
  | writeRks _ ks hlen hks =>
    refine { hs with RK_length := (List.length_map ..).trans hlen, RK_fits := fun o ho => ?_ }
    obtain ⟨k, hk, rfl⟩ := List.mem_map.mp ho
    exact hks k hk
  | writeTk _ j hj k hk =>
    rw [State.Fits, State.cfg, State.writeTk_engine, State.writeTk_S, State.writeTk_RK]
    refine { hs with TK_fits := fun n => ?_ }
    have hval : tupleEntry (s.writeTk j k).TK n = if n = j then some k else s.tkVal n := State.tkVal_writeTk hj
    rw [hval]
    split
    · exact hk
    · exact hs.TK_fits n
  | writeTuple _ t ht => exact { hs with TK_fits := tupleEntry_fits_iff.mpr (tupleFits_iff.mp (ht hs)) }

theorem Effect.dout_lt (h : Effect i s t d) (hs : s.Fits) : d < 2 ^ s.cfg.W := by
  cases h with
  | read _ _ hd => exact hd hs
  | _ => exact Nat.two_pow_pos _

end

end Sys2Proof.Machine
end

