-- ==== Sys2Proof/Proofs/State.lean ====
section
/-! The state of the engine (spec/10_state.md): the frame of every command, the invariant every step keeps, the reset
state, and what a step does not read. -/

namespace Sys2Proof.Machine

-- the frame of every command

/-- Settles O16: a raised error writes no register, and an effect is one that R34's table lists. -/
theorem commandsWriteOnlyWhatTheTableSays : Obligations.CommandsWriteOnlyWhatTheTableSays := by
  intro i s u h
  rcases exec_effect h with ⟨e, -, rfl⟩ | ⟨t, d, heff, rfl⟩
  · refine ⟨rfl, rfl, rfl, fun _ => rfl, fun _ => rfl, fun _ => rfl, ?_⟩
    rintro - - - _ ⟨⟩
    rfl
  · have hw := heff.written
    refine ⟨hw.engine_eq, hw.script_eq, hw.din_eq, heff.S_eq, heff.RK_eq, heff.TK_eq, ?_⟩
    rintro hrds hrdrk hrdtk _ ⟨⟩
    refine heff.dout_eq_zero ?_
    rintro (hi | ⟨r, hi⟩ | ⟨j, hi⟩)
    · exact hrds hi
    · exact hrdrk r hi
    · exact hrdtk j hi

-- well-formed states

theorem stickyErr_produced {old e : ErrCode} (hold : produced old = true) (he : produced e = true) :
    produced (stickyErr old e) = true := by
  unfold stickyErr
  split
  · exact he
  · exact hold

theorem okResp_fits {c : Cfg} {d : Nat} (hd : d < 2 ^ c.W) : respFits c (okResp d) = true := by
  simp [respFits, okResp, produced, hd]

theorem errResp_fits {c : Cfg} {e : ErrCode} (he : produced e = true) : respFits c (errResp e) = true := by
  simp [respFits, errResp, he]

theorem raise_wf {s : State} {e : ErrCode} (hs : s.Fits) (hERR : produced s.ERR = true) (he : produced e = true) :
    (s.raise e).wf = true :=
  State.wf_iff.mpr ⟨hs, stickyErr_produced hERR he, errResp_fits he⟩

theorem answer_wf {t : State} {d : Nat} (ht : t.Fits) (hERR : produced t.ERR = true) (hd : d < 2 ^ t.cfg.W) :
    (t.answer d).wf = true :=
  State.wf_iff.mpr ⟨ht, hERR, okResp_fits hd⟩

/-- A command keeps the registers in shape and the codes among those produced, whatever the port showed before. -/
theorem exec_wf {i : Instr} {s u : State} (hs : s.Fits) (hERR : produced s.ERR = true) (h : exec i s = .next u) :
    u.wf = true := by
  rcases exec_effect h with ⟨e, he, rfl⟩ | ⟨t, d, heff, rfl⟩
  · refine raise_wf hs hERR ?_
    rcases he with rfl | rfl <;> rfl
  · have hw := heff.written
    refine answer_wf (heff.fits hs) ?_ ?_
    · rcases hw.ERR_eq with ht | ht
      · rw [ht]; exact hERR
      · rw [ht]; rfl
    · rw [State.cfg, hw.engine_eq]
      exact heff.dout_lt hs

theorem resetOf_wf (e : Engine) : (State.resetOf e).wf = true :=
  State.wf_iff.mpr ⟨registersFit_empty e.cfg, rfl, rfl⟩

/-- Settles O11: `resetOf_wf`, which is also the reset case of O10. -/
theorem resetIsWellFormed : Obligations.ResetIsWellFormed := resetOf_wf

/-- Settles O10, event by event: `exec_wf` is the case of a command, `raise_wf` that of an illegal word. -/
theorem stepKeepsWellFormed : Obligations.StepKeepsWellFormed := by
  intro s t hwf h
  obtain ⟨hs, hERR, -⟩ := State.wf_iff.mp hwf
  rcases step_cases h with ⟨-, rfl⟩ | ⟨rest, -, rfl⟩ | ⟨q, rest, _, -, -, -, rfl⟩ | ⟨q, rest, i, -, -, -, hexec⟩
  · exact State.wf_iff.mpr ⟨hs, hERR, rfl⟩
  · exact resetOf_wf s.engine
  · exact raise_wf hs hERR rfl
  · exact exec_wf (s := s.accept q rest) hs hERR hexec

-- after reset

theorem resetOf_rkVal (e : Engine) (r : Nat) : (State.resetOf e).rkVal r = none := by
  rw [State.rkVal, State.resetOf_RK, List.getD_eq_getElem?_getD, List.getElem?_replicate]
  split <;> rfl

theorem resetOf_tkVal (e : Engine) : ∀ j, (State.resetOf e).tkVal j = none
  | 0 | 1 | 2 | 3 | _ + 4 => rfl

/-- Settles O8: the reset input leaves the registers of `State.resetOf`, whatever the host still has to present. -/
theorem resetLeavesNoRegisterWithAValue : Obligations.ResetLeavesNoRegisterWithAValue := by
  unfold Obligations.ResetLeavesNoRegisterWithAValue
  intro blank
  have hblank (e : Engine) (rest : List HostEvent) : blank { State.resetOf e with script := rest } :=
    ⟨rfl, fun r => congrArg Option.isSome (resetOf_rkVal e r), fun j => congrArg Option.isSome (resetOf_tkVal e j),
      rfl, rfl, resetOf_rkVal e, resetOf_tkVal e⟩
  exact ⟨fun e => ⟨hblank e [], rfl⟩, fun s rest hs => ⟨s.takeReset rest, step_reset hs, hblank s.engine rest, rfl⟩⟩

-- the response of the step before

/-- Two results that differ at most in the response their states still show. -/
inductive SameUpToResp : Result → Result → Prop where
  | error (e : ErrCode) : SameUpToResp (.error e) (.error e)
  | ok {t u : State} {d : Nat} (h : { t with resp := none } = { u with resp := none }) :
      SameUpToResp (.ok (t, d)) (.ok (u, d))

theorem SameUpToResp.bind {α : Type} {x : Except ErrCode α} {f g : α → Result}
    (h : ∀ a, SameUpToResp (f a) (g a)) : SameUpToResp (x >>= f) (x >>= g) := by
  cases x with
  | error e => exact .error e
  | ok a => exact h a

/-- Completing a command overwrites the response, so that the old one is lost. -/
theorem commit_of_sameUpToResp {s : State} {r : Option Response} {x y : Result} (h : SameUpToResp x y) :
    ({ s with resp := r } : State).commit x = s.commit y := by
  cases h with
  | error e => rfl
  | @ok t u d h =>
    have hanswer := congrArg (fun v : State => v.answer d) h
    exact congrArg Host.Outcome.next hanswer

theorem transform_sameUpToResp (s : State) (r : Option Response) (f : Block → Block) :
    SameUpToResp (State.transform { s with resp := r } f) (s.transform f) :=
  .bind fun _ => .ok rfl

theorem transformRk_sameUpToResp (s : State) (r : Option Response) (n : Idx) (f : Block → Block → Block) :
    SameUpToResp (State.transformRk { s with resp := r } n f) (s.transformRk n f) :=
  .bind fun _ => .bind fun _ => .bind fun _ => .ok rfl

theorem transformTk_sameUpToResp (s : State) (r : Option Response) (j : Idx) (f : Block → Block → Block) :
    SameUpToResp (State.transformTk { s with resp := r } j f) (s.transformTk j f) :=
  .bind fun _ => .bind fun _ => .bind fun _ => .ok rfl

theorem transformRks_sameUpToResp (s : State) (r : Option Response) (n : Nat) (f : Block → List Block → Block) :
    SameUpToResp (State.transformRks { s with resp := r } n f) (s.transformRks n f) :=
  .bind fun _ => .bind fun _ => .ok rfl

theorem transformTuple_sameUpToResp (s : State) (r : Option Response) (f : Block → KeyTuple Block → Block) :
    SameUpToResp (State.transformTuple { s with resp := r } f) (s.transformTuple f) :=
  .bind fun _ => .bind fun _ => .ok rfl

theorem writeTk_sameUpToResp (s : State) (r : Option Response) (j : Nat) (k : Block) :
    SameUpToResp (.ok (State.writeTk { s with resp := r } j k, 0)) (.ok (s.writeTk j k, 0)) := by
  unfold State.writeTk
  split <;> exact .ok rfl

/-- No command reads the response of the step before. -/
theorem exec_withResp (i : Instr) (s : State) (r : Option Response) : exec i { s with resp := r } = exec i s := by
  cases i with
  | nop | clrerr | clr | lds => rfl
  | rds | ksch | rksch | rkswp => exact commit_of_sameUpToResp (.bind fun _ => .ok rfl)
  | ldrk _ => exact commit_of_sameUpToResp (.bind fun _ => .ok rfl)
  | rdrk _ | rdtk _ => exact commit_of_sameUpToResp (.bind fun _ => .bind fun _ => .ok rfl)
  | ldtk _ => exact commit_of_sameUpToResp (.bind fun _ => writeTk_sameUpToResp s r _ _)
  | sub | subi | prm | prmi | mmul | mmuli | addd | mid => exact commit_of_sameUpToResp (transform_sameUpToResp s r _)
  | addrk n | rndf n | rndi n => exact commit_of_sameUpToResp (transformRk_sameUpToResp s r n _)
  | addtk j | rndft j | rndit j => exact commit_of_sameUpToResp (transformTk_sameUpToResp s r j _)
  | enc | dec => exact commit_of_sameUpToResp (transformRks_sameUpToResp s r _ _)
  | encr _ | decr _ => exact commit_of_sameUpToResp (.bind fun _ => transformRks_sameUpToResp s r _ _)
  | renc | rdec => exact commit_of_sameUpToResp (transformTuple_sameUpToResp s r _)

/-- Settles O17: the request that is presented brings its own `din`, and no command reads the old response. -/
theorem stepIgnoresEarlierPortValues : Obligations.StepIgnoresEarlierPortValues := by
  intro s ev rest d r hs
  have hs' : State.script { s with din := d, resp := r } = ev :: rest := hs
  cases ev with
  | reset => rw [step_reset hs, step_reset hs']; rfl
  | command q =>
    cases hq : q.onBus s.cfg with
    | false => rw [step_offBus hs hq, step_offBus hs' hq]
    | true =>
      cases hd : decode q.cmd with
      | error e => rw [step_illegal hs hq hd, step_illegal hs' hq hd]; rfl
      | ok i =>
        rw [step_decoded hs hq hd, step_decoded hs' hq hd]
        exact exec_withResp i (s.accept q rest) r

end Sys2Proof.Machine
end

