-- ==== Sys2Proof/Proofs/Encoding.lean ====
section
/-! The command word (spec/30_encoding.md R61 to R66): `decode_cases` says once what the decoder answers, and
`decode_eq_ok_iff` that a word decodes to a command exactly when its two bytes are the command's. -/

namespace Sys2Proof.Machine

open Sys2Proof.Laws

-- the two formats

theorem formatN_eq_ok {i j : Instr} {ii : Idx} : formatN i ii = .ok j ↔ ii = 0 ∧ i = j := by
  unfold formatN
  split
  next h => simp [h]
  next h => simpa using fun hii => absurd hii h

theorem formatN_eq_error {i : Instr} {ii : Idx} {e : DecodeError} :
    formatN i ii = .error e ↔ ii ≠ 0 ∧ e = .reservedIdx := by
  unfold formatN
  split
  next h => simp [h]
  next h =>
    constructor
    · rintro ⟨⟩
      exact ⟨h, rfl⟩
    · rintro ⟨-, rfl⟩
      rfl

theorem idxOf_of_formatN {i : Instr} (hi : takesIdx i = false) : idxOf i = 0 := by
  cases i with
  | ldrk _ | rdrk _ | ldtk _ | rdtk _ | addrk _ | addtk _ => cases hi
  | rndf _ | rndi _ | encr _ | decr _ | rndft _ | rndit _ => cases hi
  | _ => rfl

/-- R65's five ranges of opcode values outside the table. -/
def UndefinedOpcode (o : Nat) : Prop :=
  (0x03 ≤ o ∧ o ≤ 0x0F) ∨ (0x16 ≤ o ∧ o ≤ 0x1F) ∨ (0x29 ≤ o ∧ o ≤ 0x2F) ∨ (0x37 ≤ o ∧ o ≤ 0x3F) ∨ 0x47 ≤ o

theorem opcodeOf_defined (i : Instr) : ¬ UndefinedOpcode (opcodeOf i).toNat := by
  cases i <;> simp [opcodeOf, UndefinedOpcode]

-- the decoder, row by row

theorem decode_of_formatN {w : CmdWord} {i : Instr} (hi : takesIdx i = false) (ho : opcodeField w = opcodeOf i) :
    decode w = formatN i (idxField w) := by
  unfold decode
  rw [ho]
  cases i with
  | ldrk _ | rdrk _ | ldtk _ | rdtk _ | addrk _ | addtk _ => cases hi
  | rndf _ | rndi _ | encr _ | decr _ | rndft _ | rndit _ => cases hi
  | _ => rfl

theorem decode_of_fields {w : CmdWord} {i : Instr} (ho : opcodeField w = opcodeOf i) (hidx : idxField w = idxOf i) :
    decode w = .ok i := by
  unfold decode
  rw [ho, hidx]
  cases i <;> rfl

/-- Every answer of the decoder: a format-`N` row with its check of the operand byte, a format-`I` row with the operand
byte in the command, or no row. -/
theorem decode_cases (w : CmdWord) :
    (∃ i, takesIdx i = false ∧ opcodeField w = opcodeOf i ∧ decode w = formatN i (idxField w)) ∨
    (∃ i, takesIdx i = true ∧ opcodeField w = opcodeOf i ∧ idxField w = idxOf i ∧ decode w = .ok i) ∨
    (UndefinedOpcode (opcodeField w).toNat ∧ decode w = .error .undefinedOpcode) := by
  have hbyte (o : BitVec 8) (h : (opcodeField w).toNat = o.toNat) : opcodeField w = o := BitVec.eq_of_toNat_eq h
  unfold decode
  split
  case h_1 h | h_2 h | h_3 h | h_4 h | h_5 h | h_10 h | h_11 h | h_12 h | h_13 h | h_14 h | h_15 h | h_18 h | h_19 h
    | h_22 h | h_23 h | h_26 h | h_27 h | h_30 h | h_31 h | h_32 h =>
    exact .inl ⟨_, by rfl, by exact hbyte _ h, rfl⟩
  case h_6 h | h_7 h | h_8 h | h_9 h | h_16 h | h_17 h | h_20 h | h_21 h | h_24 h | h_25 h | h_28 h | h_29 h =>
    exact .inr (.inl ⟨_, by rfl, by exact hbyte _ h, by rfl, rfl⟩)
  case h_33 =>
    refine .inr (.inr ⟨?_, rfl⟩)
    simp only [imp_false] at *
    unfold UndefinedOpcode
    omega

/-- A word decodes to a command exactly when its two bytes are the command's opcode and operand. -/
theorem decode_eq_ok_iff {w : CmdWord} {i : Instr} :
    decode w = .ok i ↔ opcodeField w = opcodeOf i ∧ idxField w = idxOf i := by
  constructor
  · intro h
    rcases decode_cases w with ⟨j, hj, ho, hd⟩ | ⟨j, -, ho, hidx, hd⟩ | ⟨-, hd⟩
    · obtain ⟨hidx, rfl⟩ := formatN_eq_ok.mp (hd.symm.trans h)
      exact ⟨ho, hidx.trans (idxOf_of_formatN hj).symm⟩
    · cases hd.symm.trans h
      exact ⟨ho, hidx⟩
    · cases hd.symm.trans h
  · rintro ⟨ho, hidx⟩
    exact decode_of_fields ho hidx

/-- A word is two given bytes exactly when its fields are. -/
theorem eq_append_iff {w : CmdWord} {o ii : BitVec 8} : w = o ++ ii ↔ opcodeField w = o ∧ idxField w = ii := by
  constructor
  · rintro rfl
    exact ⟨opcodeField_append o ii, idxField_append o ii⟩
  · rintro ⟨rfl, rfl⟩
    exact (fields_append w).symm

/-- Settles O1: the two bytes of `encode i` are those of `i`. -/
theorem decodeOfEncode : Obligations.DecodeOfEncode :=
  fun i => decode_eq_ok_iff.mpr (eq_append_iff.mp (rfl : encode i = opcodeOf i ++ idxOf i))

/-- Settles O2: a word is its two bytes, and they are the command's. -/
theorem encodeOfDecode : Obligations.EncodeOfDecode :=
  fun _ _ h => (eq_append_iff.mpr (decode_eq_ok_iff.mp h)).symm

-- words and table rows

/-- Under the mask of format `I` a word is its opcode byte over a zero byte. -/
theorem mask_formatI (w : CmdWord) : w &&& (0xFF00 : BitVec 16) = opcodeField w ++ (0 : BitVec 8) := by
  conv_lhs => rw [← fields_append w]
  exact mask_opcode _ _

/-- Settles O3, format by format: the mask leaves the opcode byte to compare in format `I`, both bytes in format `N`. -/
theorem wordsMatchTheirTableRow : Obligations.WordsMatchTheirTableRow := by
  intro w i
  rw [decode_eq_ok_iff]
  cases hi : takesIdx i with
  | false =>
    have hmask : w &&& (0xFFFF : BitVec 16) = w := BitVec.and_allOnes
    have hidx : idxOf i = 0 := idxOf_of_formatN hi
    simp only [Bool.false_eq_true, if_false, hmask, hidx, and_true]
    exact eq_append_iff.symm
  | true =>
    have hrow : w &&& (0xFF00 : BitVec 16) = opcodeOf i ++ (0 : BitVec 8) ↔ opcodeField w = opcodeOf i := by
      rw [mask_formatI, eq_append_iff, opcodeField_append, idxField_append]
      exact and_iff_left rfl
    simp only [if_true, hrow, eq_comm]

/-- Settles O4: the ten words are the encodings of their commands. -/
theorem writtenWordsDecode : Obligations.WrittenWordsDecode :=
  ⟨decodeOfEncode .nop, decodeOfEncode .clr, decodeOfEncode .lds, decodeOfEncode (.ldrk 2), decodeOfEncode .mmul,
    decodeOfEncode (.addtk 255), decodeOfEncode .enc, decodeOfEncode (.encr 3), decodeOfEncode (.rndit 1),
    decodeOfEncode .rdec⟩

-- illegal words

/-- R65: the words that are no command are those of an undefined opcode and the reserved words of format `N`. -/
theorem decode_eq_error_iff {w : CmdWord} :
    (∃ e, decode w = .error e) ↔ UndefinedOpcode (opcodeField w).toNat ∨
      ∃ i, takesIdx i = false ∧ opcodeOf i = opcodeField w ∧ idxField w ≠ 0 := by
  constructor
  · rintro ⟨e, he⟩
    rcases decode_cases w with ⟨i, hi, ho, hd⟩ | ⟨i, -, -, -, hd⟩ | ⟨hu, -⟩
    · obtain ⟨hidx, -⟩ := formatN_eq_error.mp (hd.symm.trans he)
      exact .inr ⟨i, hi, ho.symm, hidx⟩
    · cases hd.symm.trans he
    · exact .inl hu
  · rintro (hu | ⟨i, hi, ho, hidx⟩)
    · cases hd : decode w with
      | error e => exact ⟨e, rfl⟩
      | ok i =>
        rw [(decode_eq_ok_iff.mp hd).1] at hu
        exact absurd hu (opcodeOf_defined i)
    · exact ⟨.reservedIdx, (decode_of_formatN hi ho.symm).trans (formatN_eq_error.mpr ⟨hidx, rfl⟩)⟩

theorem undefinedOpcode_opcodeField_iff {w : CmdWord} :
    UndefinedOpcode (opcodeField w).toNat ↔
      (0x0300 ≤ w.toNat ∧ w.toNat ≤ 0x0FFF) ∨ (0x1600 ≤ w.toNat ∧ w.toNat ≤ 0x1FFF) ∨
        (0x2900 ≤ w.toNat ∧ w.toNat ≤ 0x2FFF) ∨ (0x3700 ≤ w.toNat ∧ w.toNat ≤ 0x3FFF) ∨ 0x4700 ≤ w.toNat := by
  rw [UndefinedOpcode, opcodeField_toNat]
  omega

/-- Settles O5: R65's word ranges are the undefined opcodes with any operand byte, and the step is `step_illegal`. -/
theorem illegalWordsRaiseIllcmd : Obligations.IllegalWordsRaiseIllcmd := by
  unfold Obligations.IllegalWordsRaiseIllcmd
  intro illegal
  have hillegal (w : CmdWord) : (∃ e, decode w = .error e) ↔ illegal w := by
    rw [decode_eq_error_iff, undefinedOpcode_opcodeField_iff]
    simp only [illegal, or_assoc]
  refine ⟨hillegal, fun w => ?_, fun s q rest hs hq hill => ?_⟩
  · exact decode_eq_ok_iff.trans (eq_append_iff (o := 0) (ii := 0)).symm
  · obtain ⟨e, he⟩ := (hillegal q.cmd).mpr hill
    exact step_illegal hs hq he

end Sys2Proof.Machine
end

