-- ==== Sys2Proof/Proofs/BlockCommands.lean ====
section
/-! Commands that work on the block in `S` alone (spec/30_encoding.md R71): `Maps s i x y` says what one such command
does to the block, the other registers being those of `s`, and `MapsAll` what a sequence of them does. -/

namespace Sys2Proof.Machine

/-- `s` right after a command that left `x` in `S`: the response is `(0, 0)` and nothing else differs. -/
def State.holding (s : State) (x : Block) : State := (s.writeS x).answer 0

@[simp] theorem State.holding_engine (s : State) (x : Block) : (s.holding x).engine = s.engine := rfl
@[simp] theorem State.holding_S (s : State) (x : Block) : (s.holding x).S = some x := rfl
@[simp] theorem State.holding_RK (s : State) (x : Block) : (s.holding x).RK = s.RK := rfl
@[simp] theorem State.holding_TK (s : State) (x : Block) : (s.holding x).TK = s.TK := rfl
@[simp] theorem State.holding_ERR (s : State) (x : Block) : (s.holding x).ERR = s.ERR := rfl
@[simp] theorem State.holding_script (s : State) (x : Block) : (s.holding x).script = s.script := rfl
@[simp] theorem State.holding_din (s : State) (x : Block) : (s.holding x).din = s.din := rfl
@[simp] theorem State.holding_resp (s : State) (x : Block) : (s.holding x).resp = okResp 0 := rfl
@[simp] theorem State.holding_rkVal (s : State) (x : Block) (r : Nat) : (s.holding x).rkVal r = s.rkVal r := rfl
@[simp] theorem State.holding_tkVal (s : State) (x : Block) (j : Nat) : (s.holding x).tkVal j = s.tkVal j := rfl

/-- A state with `x` in `S` differs from `s.holding x` at most in the response. -/
theorem State.holding_of_S {s : State} {x : Block} (hx : s.S = some x) : s.holding x = { s with resp := okResp 0 } := by
  obtain ⟨⟩ := s
  cases hx
  rfl

/-- With `x` in `S` and the other registers of `s`, the command completes, leaves `y` in `S` and answers `(0, 0)`. -/
def Maps (s : State) (i : Instr) (x y : Block) : Prop := exec i (s.holding x) = .next (s.holding y)

/-- With `x` in `S` and the other registers of `s`, the commands complete one after another and leave `y` in `S`. -/
def MapsAll (s : State) (is : List Instr) (x y : Block) : Prop := execAll is (s.holding x) = .next (s.holding y)

-- sequences

section
variable {s : State} {i : Instr} {is js : List Instr} {x y z : Block}

theorem execAll_cons_of_next {t u : State} (h : exec i t = .next u) : execAll (i :: is) t = execAll is u := by
  simp only [execAll, h]

theorem MapsAll.nil : MapsAll s [] x x := rfl

theorem MapsAll.cons (h : Maps s i x y) (hs : MapsAll s is y z) : MapsAll s (i :: is) x z :=
  (execAll_cons_of_next h).trans hs

theorem MapsAll.single (h : Maps s i x y) : MapsAll s [i] x y := .cons h .nil

theorem execAll_append_of_next {t u : State} (h : execAll is t = .next u) : execAll (is ++ js) t = execAll js u := by
  induction is generalizing t with
  | nil => cases h; rfl
  | cons i is ih =>
    cases hi : exec i t with
    | next v =>
      rw [execAll_cons_of_next hi] at h
      exact (execAll_cons_of_next hi).trans (ih h)
    | fault f => simp [execAll, hi] at h
    | refused r => simp [execAll, hi] at h

theorem MapsAll.append (h : MapsAll s is x y) (hs : MapsAll s js y z) : MapsAll s (is ++ js) x z :=
  (execAll_append_of_next h).trans hs

/-- A step that the configuration may leave out: with it the block is transformed, without it kept. -/
theorem MapsAll.optional {b : Bool} (h : Maps s i x y) :
    MapsAll s (if b then [i] else []) x (if b then y else x) := by
  cases b with
  | true => exact .single h
  | false => exact .nil

/-- One command for each key of a list folds the block over the keys. -/
theorem MapsAll.foldl {f : Block → Block → Block} {ks : List Block}
    (h : List.Forall₂ (fun i k => ∀ x, Maps s i x (f x k)) is ks) (x : Block) : MapsAll s is x (ks.foldl f x) := by
  induction h generalizing x with
  | nil => exact .nil
  | cons hi _ ih => exact .cons (hi x) (ih _)

/-- The same command `n` times iterates what it does to the block. -/
theorem MapsAll.replicate {f : Block → Block} (h : ∀ x, Maps s i x (f x)) :
    ∀ (n : Nat) (x : Block), MapsAll s (List.replicate n i) x (f^[n] x)
  | 0, _ => .nil
  | n + 1, x => .cons (h x) (.replicate h n (f x))

/-- A command and a sequence that do the same to the block in `S` end alike but for the response. -/
theorem sameFinalState_of_maps (hx : s.S = some x) (hi : Maps s i x y) (his : MapsAll s is x y) :
    SameFinalState (exec i s) (execAll is s) := by
  have hexec (j : Instr) : exec j (s.holding x) = exec j s := by
    rw [State.holding_of_S hx]
    exact exec_withResp j s _
  refine ⟨s.holding y, ?_⟩
  rw [← hexec, hi]
  cases is with
  | nil =>
    have hyx : s.holding x = s.holding y := Host.Outcome.next.inj his
    exact ⟨s, rfl, rfl, by rw [← hyx, State.holding_of_S hx]⟩
  | cons j js =>
    refine ⟨s.holding y, rfl, ?_, rfl⟩
    rw [← his, execAll, execAll, hexec]

end

-- the commands that need nothing but the block

section
variable {s : State} {i : Instr}

theorem maps_of_transform {f : Block → Block} {x : Block}
    (h : exec i (s.holding x) = (s.holding x).commit ((s.holding x).transform f)) : Maps s i x (f x) := by
  rw [Maps, h, State.transform_of_S (State.holding_S s x)]
  rfl

theorem maps_sub (s : State) (x : Block) : Maps s .sub x (substitute x s.cfg.sbox) :=
  maps_of_transform (f := fun x => substitute x s.cfg.sbox) rfl

theorem maps_subi (s : State) (x : Block) : Maps s .subi x (substitute x (sboxInv s.cfg)) :=
  maps_of_transform (f := fun x => substitute x (sboxInv s.cfg)) rfl

theorem maps_prm (s : State) (x : Block) : Maps s .prm x (permute x s.cfg.pbox) :=
  maps_of_transform (f := fun x => permute x s.cfg.pbox) rfl

theorem maps_prmi (s : State) (x : Block) : Maps s .prmi x (permute x s.cfg.pboxInv) :=
  maps_of_transform (f := fun x => permute x s.cfg.pboxInv) rfl

theorem maps_mmul (s : State) (x : Block) : Maps s .mmul x (matrixMultiply s.cfg x s.cfg.m) :=
  maps_of_transform (f := fun x => matrixMultiply s.cfg x s.cfg.m) rfl

theorem maps_mmuli (s : State) (x : Block) : Maps s .mmuli x (matrixMultiply s.cfg x s.cfg.mInv) :=
  maps_of_transform (f := fun x => matrixMultiply s.cfg x s.cfg.mInv) rfl

theorem maps_mid (s : State) (x : Block) : Maps s .mid x (middleLayer s.cfg x) :=
  maps_of_transform (f := middleLayer s.cfg) rfl

-- the commands that need one key

theorem maps_of_transformRk {r : Idx} {k : Block} {f : Block → Block → Block} {x : Block}
    (hr : r.toNat < s.cfg.nrounds) (hk : s.rkVal r.toNat = some k)
    (h : exec i (s.holding x) = (s.holding x).commit ((s.holding x).transformRk r f)) : Maps s i x (f x k) := by
  rw [Maps, h, State.transformRk_of_valid (s := s.holding x) hr (State.holding_S s x) hk]
  rfl

section
variable {r : Idx} {k : Block} (hr : r.toNat < s.cfg.nrounds) (hk : s.rkVal r.toNat = some k) (x : Block)
include hr hk

theorem maps_addrk : Maps s (.addrk r) x (add x k) := maps_of_transformRk hr hk rfl
theorem maps_rndf : Maps s (.rndf r) x (forwardRound s.cfg x k) := maps_of_transformRk hr hk rfl
theorem maps_rndi : Maps s (.rndi r) x (inverseRound s.cfg x k) := maps_of_transformRk hr hk rfl

end

theorem maps_of_transformTk {j : Idx} {k : Block} {f : Block → Block → Block} {x : Block}
    (hj : j.toNat < 4) (hk : s.tkVal j.toNat = some k)
    (h : exec i (s.holding x) = (s.holding x).commit ((s.holding x).transformTk j f)) : Maps s i x (f x k) := by
  rw [Maps, h, State.transformTk_of_valid (s := s.holding x) hj (State.holding_S s x) hk]
  rfl

section
variable {j : Idx} {k : Block} (hj : j.toNat < 4) (hk : s.tkVal j.toNat = some k) (x : Block)
include hj hk

theorem maps_addtk : Maps s (.addtk j) x (add x k) := maps_of_transformTk hj hk rfl
theorem maps_rndft : Maps s (.rndft j) x (forwardRound s.cfg x k) := maps_of_transformTk hj hk rfl
theorem maps_rndit : Maps s (.rndit j) x (inverseRound s.cfg x k) := maps_of_transformTk hj hk rfl

end

-- the commands that need several keys

theorem map_rkVal_of_holdsRoundKeys {n : Nat} {ks : List Block} (h : HoldsRoundKeys s n ks) :
    (List.range n).map s.rkVal = ks.map some := by
  obtain ⟨rfl, hval⟩ := h
  refine List.ext_getElem (by simp) fun r hr _ => ?_
  have hlt : r < ks.length := by simpa using hr
  simp [hval r hlt, hlt]

theorem maps_of_transformRks {n : Nat} {ks : List Block} {f : Block → List Block → Block} {x : Block}
    (hks : HoldsRoundKeys s n ks)
    (h : exec i (s.holding x) = (s.holding x).commit ((s.holding x).transformRks n f)) : Maps s i x (f x ks) := by
  rw [Maps, h, State.transformRks_of_valid (State.holding_S s x) (map_rkVal_of_holdsRoundKeys (s := s.holding x) hks)]
  rfl

theorem maps_enc {ks : List Block} (hks : HoldsRoundKeys s s.cfg.nrounds ks) (x : Block) :
    Maps s .enc x (encryptRounds s.cfg x ks s.cfg.nrounds) :=
  maps_of_transformRks hks (f := fun x ks => encryptRounds s.cfg x ks s.cfg.nrounds) rfl

theorem maps_dec {ks : List Block} (hks : HoldsRoundKeys s s.cfg.nrounds ks) (x : Block) :
    Maps s .dec x (decryptRounds s.cfg x ks s.cfg.nrounds) :=
  maps_of_transformRks hks (f := fun x ks => decryptRounds s.cfg x ks s.cfg.nrounds) rfl

section
variable {n : Idx} {ks : List Block} (hn : n.toNat ≤ s.cfg.nrounds) (hks : HoldsRoundKeys s n.toNat ks) (x : Block)
include hn hks

theorem maps_encr : Maps s (.encr n) x (encryptRounds s.cfg x ks n.toNat) := by
  refine maps_of_transformRks hks (f := fun x ks => encryptRounds s.cfg x ks n.toNat) ?_
  rw [exec, execEncr, roundCount_of_le (s := s.holding x) hn]
  rfl

theorem maps_decr : Maps s (.decr n) x (decryptRounds s.cfg x ks n.toNat) := by
  refine maps_of_transformRks hks (f := fun x ks => decryptRounds s.cfg x ks n.toNat) ?_
  rw [exec, execDecr, roundCount_of_le (s := s.holding x) hn]
  rfl

end

theorem maps_of_transformTuple {t : KeyTuple Block} {f : Block → KeyTuple Block → Block} {x : Block}
    (ht : HoldsTuple s t)
    (h : exec i (s.holding x) = (s.holding x).commit ((s.holding x).transformTuple f)) : Maps s i x (f x t) := by
  rw [Maps, h, State.transformTuple_of_valid (State.holding_S s x) (s := s.holding x) ht]
  rfl

theorem maps_renc {t : KeyTuple Block} (ht : HoldsTuple s t) (x : Block) :
    Maps s .renc x (reflectorEncryptT s.cfg x t) := maps_of_transformTuple ht rfl

theorem maps_rdec {t : KeyTuple Block} (ht : HoldsTuple s t) (x : Block) :
    Maps s .rdec x (reflectorDecryptT s.cfg x t) := maps_of_transformTuple ht rfl

end

end Sys2Proof.Machine
end

