-- ==== Sys2Proof/Proofs/Sequences.lean ====
section
/-! The compound commands and their sequences of smaller ones (spec/30_encoding.md R71): both do the same to the block
in `S`, step by step as the function layer is written. -/

namespace Sys2Proof.Machine

-- one round and its layers

section
variable {s : State} {r : Idx} {k : Block} (hr : r.toNat < s.cfg.nrounds) (hk : s.rkVal r.toNat = some k) (x : Block)
include hr hk

theorem mapsAll_forwardRound_sap (horder : s.cfg.roundOrder = .sap) :
    MapsAll s ([.sub, .addrk r, .prm] ++ if s.cfg.diffusionInRound then [.mmul] else []) x
      (forwardRound s.cfg x k) := by
  rw [forwardRound, horder]
  exact .append (.cons (maps_sub s x) (.cons (maps_addrk hr hk _) (.single (maps_prm s _)))) (.optional (maps_mmul s _))

theorem mapsAll_forwardRound_asp (horder : s.cfg.roundOrder = .asp) :
    MapsAll s ([.addrk r, .sub, .prm] ++ if s.cfg.diffusionInRound then [.mmul] else []) x
      (forwardRound s.cfg x k) := by
  rw [forwardRound, horder]
  exact .append (.cons (maps_addrk hr hk x) (.cons (maps_sub s _) (.single (maps_prm s _)))) (.optional (maps_mmul s _))

theorem mapsAll_inverseRound_sap (horder : s.cfg.roundOrder = .sap) :
    MapsAll s ((if s.cfg.diffusionInRound then [.mmuli] else []) ++ [.prmi, .addrk r, .subi]) x
      (inverseRound s.cfg x k) := by
  rw [inverseRound, horder]
  exact .append (.optional (maps_mmuli s x))
    (.cons (maps_prmi s _) (.cons (maps_addrk hr hk _) (.single (maps_subi s _))))

theorem mapsAll_inverseRound_asp (horder : s.cfg.roundOrder = .asp) :
    MapsAll s ((if s.cfg.diffusionInRound then [.mmuli] else []) ++ [.prmi, .subi, .addrk r]) x
      (inverseRound s.cfg x k) := by
  rw [inverseRound, horder]
  exact .append (.optional (maps_mmuli s x))
    (.cons (maps_prmi s _) (.cons (maps_subi s _) (.single (maps_addrk hr hk _))))

end

/-- Settles O40: in either order the layers make the round. -/
theorem roundsEqualTheirLayers : Obligations.RoundsEqualTheirLayers := by
  intro s r x k hr hx hk
  have hrndf := maps_rndf hr hk x
  have hrndi := maps_rndi hr hk x
  exact ⟨fun horder => ⟨sameFinalState_of_maps hx hrndf (mapsAll_forwardRound_sap hr hk x horder),
      sameFinalState_of_maps hx hrndi (mapsAll_inverseRound_sap hr hk x horder)⟩,
    fun horder => ⟨sameFinalState_of_maps hx hrndf (mapsAll_forwardRound_asp hr hk x horder),
      sameFinalState_of_maps hx hrndi (mapsAll_inverseRound_asp hr hk x horder)⟩⟩

-- whole and partial encryption and its rounds

/-- There are at most 255 rounds, so that a round number fits the operand byte (R9 V7). -/
theorem Engine.roundNumber_toNat (e : Engine) {n : Nat} (hn : n ≤ e.cfg.nrounds) : (BitVec.ofNat 8 n).toNat = n := by
  have h := e.sizes
  simp only [sizesOk, Bool.and_eq_true, decide_eq_true_eq] at h
  exact (BitVec.toNat_ofNat n 8).trans (Nat.mod_eq_of_lt (by omega))

section
variable {s : State} {n : Nat} {ks : List Block} (hn : n ≤ s.cfg.nrounds) (hks : HoldsRoundKeys s n ks)
include hn hks

/-- The commands that name the rounds `0 .. n-1` meet the keys in their order. -/
theorem forall₂_roundKeys {f : Block → Block → Block} {cmd : Idx → Instr}
    (hcmd : ∀ {r : Idx} {k : Block}, r.toNat < s.cfg.nrounds → s.rkVal r.toNat = some k →
      ∀ x, Maps s (cmd r) x (f x k)) :
    List.Forall₂ (fun i k => ∀ x, Maps s i x (f x k)) ((List.range n).map fun r => cmd (BitVec.ofNat 8 r)) ks := by
  obtain ⟨rfl, hval⟩ := hks
  rw [List.forall₂_iff_get]
  refine ⟨by simp, fun r _ hr => ?_⟩
  have hlt : r < s.cfg.nrounds := Nat.lt_of_lt_of_le hr hn
  have hbyte : (BitVec.ofNat 8 r).toNat = r := s.engine.roundNumber_toNat hlt.le
  simp only [List.get_eq_getElem, List.getElem_map, List.getElem_range]
  refine hcmd (hbyte.symm ▸ hlt) ?_
  rw [hbyte, hval r hr, List.getElem?_eq_getElem hr]

theorem mapsAll_encryptRounds (x : Block) :
    MapsAll s ((List.range n).map fun r => .rndf (BitVec.ofNat 8 r)) x (encryptRounds s.cfg x ks n) := by
  rw [encryptRounds, List.take_of_length_le hks.1.le]
  exact .foldl (forall₂_roundKeys hn hks maps_rndf) x

theorem mapsAll_decryptRounds (x : Block) :
    MapsAll s ((List.range n).map fun r => .rndi (BitVec.ofNat 8 r)).reverse x (decryptRounds s.cfg x ks n) := by
  rw [decryptRounds, List.take_of_length_le hks.1.le]
  exact .foldl (List.forall₂_reverse_iff.mpr (forall₂_roundKeys hn hks maps_rndi)) x

end

-- the reflector cipher and its steps

theorem forwardHalf_eq_iterate (c : Cfg) (k : Block) :
    ∀ (t : Nat) (x : Block), forwardHalf c k t x = (fun x => forwardRound c x k)^[t] x
  | 0, _ => rfl
  | t + 1, x => forwardHalf_eq_iterate c k t (forwardRound c x k)

theorem inverseHalf_eq_iterate (c : Cfg) (k : Block) :
    ∀ (t : Nat) (x : Block), inverseHalf c k t x = (fun x => inverseRound c x k)^[t] x
  | 0, _ => rfl
  | t + 1, x => inverseHalf_eq_iterate c k t (inverseRound c x k)

theorem tkVal_of_holdsTuple {s : State} {t : KeyTuple Block} (ht : HoldsTuple s t) :
    s.tkVal 0 = some t.k0 ∧ s.tkVal 1 = some t.k1 ∧ s.tkVal 2 = some t.k0p ∧ s.tkVal 3 = some t.k1a := by
  simp [State.tkVal, ht, tupleEntry]

theorem mapsAll_middleLayer (s : State) (x : Block) : MapsAll s [.sub, .mmul, .sub] x (middleLayer s.cfg x) :=
  .cons (maps_sub s x) (.cons (maps_mmul s _) (.single (maps_sub s _)))

theorem mapsAll_reflectorEncryptT {s : State} {t : KeyTuple Block} (ht : HoldsTuple s t) (x : Block) :
    MapsAll s ([.addtk 0, .addtk 1] ++ List.replicate s.cfg.rhalf (.rndft 1) ++ [.mid] ++
      List.replicate s.cfg.rhalf (.rndit 3) ++ [.addtk 3, .addtk 2]) x (reflectorEncryptT s.cfg x t) := by
  obtain ⟨h0, h1, h2, h3⟩ := tkVal_of_holdsTuple ht
  have hwhiten (x : Block) : MapsAll s [.addtk 0, .addtk 1] x (add (add x t.k0) t.k1) :=
    .cons (maps_addtk (by decide) h0 x) (.single (maps_addtk (by decide) h1 _))
  have hforward := MapsAll.replicate (maps_rndft (j := 1) (by decide) h1) s.cfg.rhalf
  have hinverse := MapsAll.replicate (maps_rndit (j := 3) (by decide) h3) s.cfg.rhalf
  have hunwhiten (x : Block) : MapsAll s [.addtk 3, .addtk 2] x (add (add x t.k1a) t.k0p) :=
    .cons (maps_addtk (by decide) h3 x) (.single (maps_addtk (by decide) h2 _))
  rw [reflectorEncryptT, forwardHalf_eq_iterate, inverseHalf_eq_iterate]
  exact ((((hwhiten x).append (hforward _)).append (.single (maps_mid s _))).append (hinverse _)).append (hunwhiten _)

/-- Settles O41, command by command: each one and its sequence do to the block what the function layer says. -/
theorem ciphersEqualTheirRounds : Obligations.CiphersEqualTheirRounds := by
  unfold Obligations.CiphersEqualTheirRounds
  intro up down
  refine ⟨fun s x ks hx hks => ?_, fun s n x ks hn hx hks => ?_, fun s x hx => ?_, fun s x t hx ht => ?_⟩
  · exact ⟨sameFinalState_of_maps hx (maps_enc hks x) (mapsAll_encryptRounds le_rfl hks x),
      sameFinalState_of_maps hx (maps_dec hks x) (mapsAll_decryptRounds le_rfl hks x)⟩
  · exact ⟨sameFinalState_of_maps hx (maps_encr hn hks x) (mapsAll_encryptRounds hn hks x),
      sameFinalState_of_maps hx (maps_decr hn hks x) (mapsAll_decryptRounds hn hks x)⟩
  · exact sameFinalState_of_maps hx (maps_mid s x) (mapsAll_middleLayer s x)
  · exact sameFinalState_of_maps hx (maps_renc ht x) (mapsAll_reflectorEncryptT ht x)

end Sys2Proof.Machine
end

