-- ==== Sys2Proof/Proofs/HostSequences.lean ====
section
/-! The host's sequences of R70 (spec/30_encoding.md) realise the functions: keys are loaded, a block is loaded, one
command works on it, and the block is read. One lemma says what a request in front does, one what the last three
requests return; the rest is which keys the registers hold then. -/

namespace Sys2Proof.Machine

-- one request

/-- `s` as a command finds it that the host presents alone with the value `din`. -/
def State.presented (s : State) (din : Nat) : State := { s with script := [], din := din }

@[simp] theorem State.presented_engine (s : State) (d : Nat) : (s.presented d).engine = s.engine := rfl
@[simp] theorem State.presented_S (s : State) (d : Nat) : (s.presented d).S = s.S := rfl
@[simp] theorem State.presented_RK (s : State) (d : Nat) : (s.presented d).RK = s.RK := rfl
@[simp] theorem State.presented_TK (s : State) (d : Nat) : (s.presented d).TK = s.TK := rfl
@[simp] theorem State.presented_ERR (s : State) (d : Nat) : (s.presented d).ERR = s.ERR := rfl
@[simp] theorem State.presented_script (s : State) (d : Nat) : (s.presented d).script = [] := rfl
@[simp] theorem State.presented_din (s : State) (d : Nat) : (s.presented d).din = d := rfl
@[simp] theorem State.presented_resp (s : State) (d : Nat) : (s.presented d).resp = s.resp := rfl

theorem step_request {s : State} {din : Nat} (i : Instr) (hbus : din < 2 ^ s.cfg.DW) :
    step { s with script := [.command (request i din)] } = exec i (s.presented din) := by
  have hq : (request i din).onBus s.cfg = true := decide_eq_true (p := din < 2 ^ s.cfg.DW) hbus
  exact step_decoded (s := { s with script := [.command (request i din)] }) rfl hq (decodeOfEncode i)

theorem runMacro_cons {s t : State} {i : Instr} {din d d' : Nat} {rest : List Request} (hbus : din < 2 ^ s.cfg.DW)
    (h : exec i (s.presented din) = .next (t.answer d')) :
    runMacro s d (request i din :: rest) = runMacro (t.answer d') d' rest := by
  rw [runMacro, step_request i hbus, h]
  rfl

-- the widths of the data operands

theorem Engine.KW_pos (e : Engine) : 0 < e.cfg.KW := by
  have h := e.sizes
  simp only [sizesOk, Bool.and_eq_true, decide_eq_true_eq] at h
  exact Nat.mul_pos (by omega) e.W_pos

theorem Engine.TKW_pos (e : Engine) : 0 < e.cfg.TKW := Nat.mul_pos (by decide) e.W_pos

theorem lt_bus_of_lt_KW {c : Cfg} {v : Nat} (h : v < 2 ^ c.KW) : v < 2 ^ c.DW :=
  h.trans_le (Nat.pow_le_pow_right (by decide) (le_max_left ..))

theorem lt_bus_of_lt_TKW {c : Cfg} {v : Nat} (h : v < 2 ^ c.TKW) : v < 2 ^ c.DW :=
  h.trans_le (Nat.pow_le_pow_right (by decide) (le_max_right ..))

theorem lt_bus_of_lt_W {c : Cfg} {v : Nat} (h : v < 2 ^ c.W) : v < 2 ^ c.DW :=
  lt_bus_of_lt_TKW (h.trans_le (Nat.pow_le_pow_right (by decide) (Nat.le_mul_of_pos_left _ (by decide))))

theorem slice_of_lt {v width : Nat} (hw : 0 < width) (hv : v < 2 ^ width) : slice v (width - 1) 0 = v := by
  rw [slice, Nat.sub_zero, Nat.sub_add_cancel hw, Nat.shiftRight_zero, Nat.mod_eq_of_lt hv]

theorem dinBlock_of_lt {s : State} (h : s.din < 2 ^ s.cfg.W) :
    dinBlock s = intToCells s.din s.cfg.ncells s.cfg.nbits := by
  rw [dinBlock, slice_of_lt s.engine.W_pos h]

theorem dinKey_of_lt {s : State} {width : Nat} (hw : 0 < width) (h : s.din < 2 ^ width) :
    dinKey s width = .ok s.din := by
  rw [dinKey_of_fits (by rw [Nat.shiftRight_eq_div_pow, Nat.div_eq_of_lt h]), slice_of_lt hw h]

-- the commands of the host's sequences, with operands in range

section
variable {s : State}

theorem exec_lds (h : s.din < 2 ^ s.cfg.W) :
    exec .lds s = .next ((s.writeS (intToCells s.din s.cfg.ncells s.cfg.nbits)).answer 0) := by
  rw [exec, execLds, dinBlock_of_lt h]
  rfl

theorem exec_rds {x : Block} (hx : s.S = some x) : exec .rds s = .next (s.answer (cellsToInt x s.cfg.nbits)) := by
  rw [exec, execRds, State.readS_eq_ok.mpr hx]
  rfl

theorem exec_ldrk {r : Idx} (hr : r.toNat < s.cfg.nrounds) (h : s.din < 2 ^ s.cfg.W) :
    exec (.ldrk r) s = .next ((s.writeRk r.toNat (intToCells s.din s.cfg.ncells s.cfg.nbits)).answer 0) := by
  rw [exec, execLdrk, rkIndex_of_lt hr, dinBlock_of_lt h]
  rfl

theorem exec_ksch (h : s.din < 2 ^ s.cfg.KW) :
    exec .ksch s = .next ((s.writeRks (keySchedule s.cfg s.din)).answer 0) := by
  rw [exec, execKsch, dinKey_of_lt s.engine.KW_pos h]
  rfl

theorem exec_rksch (h : s.din < 2 ^ s.cfg.TKW) :
    exec .rksch s = .next ((s.writeTuple (reflectorKeySchedule s.cfg s.din)).answer 0) := by
  rw [exec, execRksch, dinKey_of_lt s.engine.TKW_pos h]
  rfl

theorem exec_rkswp {t : KeyTuple Block} (ht : HoldsTuple s t) :
    exec .rkswp s = .next ((s.writeTuple (relabel t)).answer 0) := by
  rw [exec, execRkswp, State.readTuple_eq_ok.mpr ht]
  rfl

end

-- how every sequence of R70 ends

/-- Load a block, let one command work on it, read it. -/
theorem runMacro_lds_rds {s : State} {i : Instr} {p d : Nat} {y : Block} (hp : p < 2 ^ s.cfg.W)
    (h : Maps (s.presented 0) i (intToCells p s.cfg.ncells s.cfg.nbits) y) :
    runMacro s d [request .lds p, request i 0, request .rds 0] = .value (cellsToInt y s.cfg.nbits) := by
  have hzero : 0 < 2 ^ s.cfg.DW := Nat.two_pow_pos _
  calc runMacro s d [request .lds p, request i 0, request .rds 0]
      = runMacro ((s.presented p).holding (intToCells p s.cfg.ncells s.cfg.nbits)) 0 [request i 0, request .rds 0] :=
        runMacro_cons (lt_bus_of_lt_W hp) (exec_lds (s := s.presented p) hp)
    _ = runMacro ((s.presented 0).holding y) 0 [request .rds 0] :=
        runMacro_cons (s := (s.presented p).holding _) hzero h
    _ = .value (cellsToInt y s.cfg.nbits) :=
        runMacro_cons (s := (s.presented 0).holding y) hzero (exec_rds (s := (s.presented 0).holding y) rfl)

-- the SPN cipher

section
variable {s : State} {p k : Nat}

theorem holdsRoundKeys_of_RK {ks : List Block} (h : s.RK = ks.map some) : HoldsRoundKeys s ks.length ks := by
  refine ⟨rfl, fun r hr => ?_⟩
  simp [State.rkVal, h, hr]

/-- `KSCH` in front: the command after the load finds the round keys of `k`. -/
theorem runMacro_ksch_lds_rds {i : Instr} {y : Block} (hk : k < 2 ^ s.cfg.KW) (hp : p < 2 ^ s.cfg.W)
    (h : ∀ t : State, t.cfg = s.cfg → HoldsRoundKeys t t.cfg.nrounds (keySchedule s.cfg k) →
      Maps t i (intToCells p s.cfg.ncells s.cfg.nbits) y) :
    runMacro s 0 [request .ksch k, request .lds p, request i 0, request .rds 0] =
      .value (cellsToInt y s.cfg.nbits) := by
  rw [runMacro_cons (lt_bus_of_lt_KW hk) (exec_ksch (s := s.presented k) hk)]
  refine runMacro_lds_rds hp (h _ rfl ?_)
  have hkeys := holdsRoundKeys_of_RK (s := (((s.presented k).writeRks (keySchedule s.cfg k)).answer 0).presented 0) rfl
  rwa [keySchedule_length] at hkeys

theorem encrypt_int (c : Cfg) (hp : p < 2 ^ c.W) (hk : k < 2 ^ c.KW) :
    encrypt c (.int p) k = .ok (.int (cellsToInt
      (encryptRounds c (intToCells p c.ncells c.nbits) (keySchedule c k) c.nrounds) c.nbits)) := by
  rw [encrypt, BlockArg.toBlock, if_pos hp, checkedKey, if_pos hk]
  rfl

theorem decrypt_int (c : Cfg) (hp : p < 2 ^ c.W) (hk : k < 2 ^ c.KW) :
    decrypt c (.int p) k = .ok (.int (cellsToInt
      (decryptRounds c (intToCells p c.ncells c.nbits) (keySchedule c k) c.nrounds) c.nbits)) := by
  rw [decrypt, BlockArg.toBlock, if_pos hp, checkedKey, if_pos hk]
  rfl

end

/-- Settles O54: after `KSCH` the whole-cipher commands find the key schedule of the master key. -/
theorem spnMacrosRealiseTheFunctions : Obligations.SpnMacrosRealiseTheFunctions := by
  intro s p k hp hk
  refine ⟨⟨_, encrypt_int s.cfg hp hk, runMacro_ksch_lds_rds hk hp fun t ht hks => ?_⟩,
    ⟨_, decrypt_int s.cfg hp hk, runMacro_ksch_lds_rds hk hp fun t ht hks => ?_⟩⟩
  · rw [← ht] at hks ⊢
    exact maps_enc hks _
  · rw [← ht] at hks ⊢
    exact maps_dec hks _

-- the reflector cipher

section
variable {s : State} {p k : Nat}

/-- `RKSCH` in front: what follows finds the key tuple of `k`. -/
theorem runMacro_rksch (hk : k < 2 ^ s.cfg.TKW) (rest : List Request) :
    runMacro s 0 (request .rksch k :: rest) =
      runMacro (((s.presented k).writeTuple (reflectorKeySchedule s.cfg k)).answer 0) 0 rest :=
  runMacro_cons (lt_bus_of_lt_TKW hk) (exec_rksch (s := s.presented k) hk)

theorem reflectorEncrypt_int (c : Cfg) (hp : p < 2 ^ c.W) (hk : k < 2 ^ c.TKW) :
    reflectorEncrypt c (.int p) k = .ok (.int (cellsToInt
      (reflectorEncryptT c (intToCells p c.ncells c.nbits) (reflectorKeySchedule c k)) c.nbits)) := by
  rw [reflectorEncrypt, BlockArg.toBlock, if_pos hp, checkedKey, if_pos hk]
  rfl

theorem reflectorDecrypt_int (c : Cfg) (hp : p < 2 ^ c.W) (hk : k < 2 ^ c.TKW) :
    reflectorDecrypt c (.int p) k = .ok (.int (cellsToInt
      (reflectorDecryptT c (intToCells p c.ncells c.nbits) (reflectorKeySchedule c k)) c.nbits)) := by
  rw [reflectorDecrypt, BlockArg.toBlock, if_pos hp, checkedKey, if_pos hk]
  rfl

theorem runMacro_macroREncrypt (hp : p < 2 ^ s.cfg.W) (hk : k < 2 ^ s.cfg.TKW) :
    runMacro s 0 (macroREncrypt p k) = .value (cellsToInt (reflectorEncryptT s.cfg
      (intToCells p s.cfg.ncells s.cfg.nbits) (reflectorKeySchedule s.cfg k)) s.cfg.nbits) := by
  rw [macroREncrypt, runMacro_rksch hk]
  exact runMacro_lds_rds hp (maps_renc rfl _)

theorem runMacro_macroRDecrypt (hp : p < 2 ^ s.cfg.W) (hk : k < 2 ^ s.cfg.TKW) :
    runMacro s 0 (macroRDecrypt p k) = .value (cellsToInt (reflectorDecryptT s.cfg
      (intToCells p s.cfg.ncells s.cfg.nbits) (reflectorKeySchedule s.cfg k)) s.cfg.nbits) := by
  rw [macroRDecrypt, runMacro_rksch hk]
  exact runMacro_lds_rds hp (maps_rdec rfl _)

/-- `RKSWP` leaves the relabelled tuple, under which encryption is decryption (R175). -/
theorem runMacro_macroRDecrypt2 (hp : p < 2 ^ s.cfg.W) (hk : k < 2 ^ s.cfg.TKW) :
    runMacro s 0 (macroRDecrypt2 p k) = .value (cellsToInt (reflectorDecryptT s.cfg
      (intToCells p s.cfg.ncells s.cfg.nbits) (reflectorKeySchedule s.cfg k)) s.cfg.nbits) := by
  rw [macroRDecrypt2, runMacro_rksch hk,
    runMacro_cons (Nat.two_pow_pos _) (exec_rkswp (t := reflectorKeySchedule s.cfg k) rfl)]
  exact runMacro_lds_rds hp (maps_renc (t := relabel (reflectorKeySchedule s.cfg k)) rfl _)

end

/-- Settles O55: after `RKSCH` the reflector commands find the key tuple of the master key. -/
theorem reflectorMacrosRealiseTheFunctions : Obligations.ReflectorMacrosRealiseTheFunctions := by
  intro s p k hp hk
  exact ⟨⟨_, reflectorEncrypt_int s.cfg hp hk, runMacro_macroREncrypt hp hk⟩,
    ⟨_, reflectorDecrypt_int s.cfg hp hk, runMacro_macroRDecrypt hp hk, runMacro_macroRDecrypt2 hp hk⟩⟩

-- partial rounds

/-- One more round key, written behind those held. -/
theorem holdsRoundKeys_writeRk {s : State} {n : Nat} {ks : List Block} {k : Block} (hn : n < s.RK.length)
    (h : HoldsRoundKeys s n ks) : HoldsRoundKeys (s.writeRk n k) (n + 1) (ks ++ [k]) := by
  obtain ⟨rfl, hval⟩ := h
  refine ⟨by simp, fun r hr => ?_⟩
  rw [State.rkVal_writeRk hn]
  split
  next heq => simp [heq]
  next hne =>
    have hlt : r < ks.length := by omega
    rw [hval r hlt, List.getElem?_append_left hlt]

/-- One `LDRK` request puts its key behind those held already. -/
theorem runMacro_ldrk {s : State} {n k : Nat} {held : List Block} (hlen : s.RK.length = s.cfg.nrounds)
    (hn : n < s.cfg.nrounds) (hk : k < 2 ^ s.cfg.W) (hheld : HoldsRoundKeys s n held) :
    ∃ t : State, t.cfg = s.cfg ∧ t.RK.length = t.cfg.nrounds ∧
      HoldsRoundKeys t (n + 1) (held ++ [intToCells k s.cfg.ncells s.cfg.nbits]) ∧
      ∀ rest, runMacro s 0 (request (.ldrk (BitVec.ofNat 8 n)) k :: rest) = runMacro t 0 rest := by
  have hbyte : (BitVec.ofNat 8 n).toNat = n := s.engine.roundNumber_toNat hn.le
  have hexec := exec_ldrk (s := s.presented k) (r := BitVec.ofNat 8 n) (hbyte.symm ▸ hn) hk
  rw [hbyte] at hexec
  exact ⟨((s.presented k).writeRk n (intToCells k s.cfg.ncells s.cfg.nbits)).answer 0, rfl,
    (List.length_set ..).trans hlen, holdsRoundKeys_writeRk (s := s.presented k) (hlen.symm ▸ hn) hheld,
    fun _ => runMacro_cons (lt_bus_of_lt_W hk) hexec⟩

/-- The `LDRK` requests put the supplied keys behind those held already. -/
theorem runMacro_loadRoundKeys (ks : List Nat) :
    ∀ {s : State} {n : Nat} {held : List Block}, s.RK.length = s.cfg.nrounds → n + ks.length ≤ s.cfg.nrounds →
      (∀ k ∈ ks, k < 2 ^ s.cfg.W) → HoldsRoundKeys s n held →
      ∃ t : State, t.cfg = s.cfg ∧
        HoldsRoundKeys t (n + ks.length) (held ++ ks.map fun k => intToCells k s.cfg.ncells s.cfg.nbits) ∧
        ∀ rest, runMacro s 0 (loadRoundKeys n ks ++ rest) = runMacro t 0 rest := by
  induction ks with
  | nil =>
    intro s n held _ _ _ hheld
    exact ⟨s, rfl, by simpa using hheld, fun rest => rfl⟩
  | cons k ks ih =>
    intro s n held hlen hroom hks hheld
    rw [List.length_cons, Nat.add_comm ks.length, ← Nat.add_assoc] at hroom ⊢
    obtain ⟨hk, hks⟩ := List.forall_mem_cons.mp hks
    obtain ⟨u, hu, hulen, huheld, hurun⟩ := runMacro_ldrk hlen (by omega) hk hheld
    rw [← hu] at hroom hks huheld ⊢
    obtain ⟨t, ht, htheld, htrun⟩ := ih hulen hroom hks huheld
    refine ⟨t, ht, ?_, fun rest => (hurun _).trans (htrun rest)⟩
    rwa [List.append_assoc] at htheld

/-- The `LDRK` requests in front: the command after them finds the supplied keys, whatever `RK` held. -/
theorem runMacro_loadRoundKeys_lds_rds {s : State} {p : Nat} {ks : List Nat} {i : Instr} {y : Block}
    (hlen : s.RK.length = s.cfg.nrounds) (hroom : ks.length ≤ s.cfg.nrounds) (hp : p < 2 ^ s.cfg.W)
    (hks : ∀ k ∈ ks, k < 2 ^ s.cfg.W)
    (h : ∀ t : State, t.cfg = s.cfg →
      HoldsRoundKeys t ks.length (ks.map fun k => intToCells k s.cfg.ncells s.cfg.nbits) →
      Maps t i (intToCells p s.cfg.ncells s.cfg.nbits) y) :
    runMacro s 0 (loadRoundKeys 0 ks ++ [request .lds p, request i 0, request .rds 0]) =
      .value (cellsToInt y s.cfg.nbits) := by
  obtain ⟨t, hcfg, hkeys, hrun⟩ := runMacro_loadRoundKeys ks (n := 0) (held := []) hlen
    (by rwa [Nat.zero_add]) hks
    ⟨rfl, fun r hr => absurd hr (Nat.not_lt_zero r)⟩
  rw [Nat.zero_add, List.nil_append] at hkeys
  have hmaps := h (t.presented 0) hcfg hkeys
  rw [← hcfg] at hp hmaps ⊢
  exact (hrun _).trans (runMacro_lds_rds hp hmaps)

/-- Settles O56: after the `LDRK` requests `ENCR n` and `DECR n` find the `n` supplied keys. -/
theorem partialRoundMacrosRealiseTheFunctions : Obligations.PartialRoundMacrosRealiseTheFunctions := by
  intro s p ks hlen hroom hp hks x keys
  have hbyte : (BitVec.ofNat 8 ks.length).toNat = ks.length := s.engine.roundNumber_toNat hroom
  constructor
  · refine runMacro_loadRoundKeys_lds_rds hlen hroom hp hks fun t hcfg hkeys => ?_
    have hmaps := maps_encr (n := BitVec.ofNat 8 ks.length) (hbyte.symm ▸ hcfg.symm ▸ hroom) (hbyte.symm ▸ hkeys) x
    rwa [hbyte, hcfg] at hmaps
  · refine runMacro_loadRoundKeys_lds_rds hlen hroom hp hks fun t hcfg hkeys => ?_
    have hmaps := maps_decr (n := BitVec.ofNat 8 ks.length) (hbyte.symm ▸ hcfg.symm ▸ hroom) (hbyte.symm ▸ hkeys) x
    rwa [hbyte, hcfg] at hmaps

end Sys2Proof.Machine
end

