-- ==== Sys2Proof/Proofs/CellCodec.lean ====
section
/-! The cell codec (spec/40_cellcodec.md): `intToCells` and `cellsToInt` both work from the least significant cell
upward, which gives their inverse laws by induction (R82); what a load writes, its read answers (R221 to R226); and
where `rotateLeft` takes each bit (R86). -/

namespace Sys2Proof.Machine

-- the codec, by its least significant cell

@[simp] theorem intToCells_zero (v b : Nat) : intToCells v 0 b = [] := rfl

theorem intToCells_succ (v n b : Nat) : intToCells v (n + 1) b = intToCells (v >>> b) n b ++ [v % 2 ^ b] := by
  have hfront : ∀ i ∈ List.range n,
      (v >>> (b * (n + 1 - 1 - i))) % 2 ^ b = ((v >>> b) >>> (b * (n - 1 - i))) % 2 ^ b := by
    intro i hi
    have hlt : i < n := List.mem_range.mp hi
    rw [← Nat.shiftRight_add, show n + 1 - 1 - i = (n - 1 - i) + 1 by omega, Nat.mul_succ, Nat.add_comm b]
  rw [intToCells, List.range_succ, List.map_append, List.map_congr_left hfront]
  simp [intToCells]

@[simp] theorem cellsToInt_nil (b : Nat) : cellsToInt [] b = 0 := rfl

@[simp] theorem cellsToInt_concat (x : Block) (v : Cell) (b : Nat) :
    cellsToInt (x ++ [v]) b = cellsToInt x b * 2 ^ b + v := by
  simp [cellsToInt]

theorem cellsToInt_intToCells (v n b : Nat) : cellsToInt (intToCells v n b) b = v % 2 ^ (n * b) := by
  induction n generalizing v with
  | zero => simp [Nat.mod_one]
  | succ n ih =>
    calc cellsToInt (intToCells v (n + 1) b) b
        = (v >>> b) % 2 ^ (n * b) * 2 ^ b + v % 2 ^ b := by rw [intToCells_succ, cellsToInt_concat, ih]
      _ = v % 2 ^ b + 2 ^ b * (v / 2 ^ b % 2 ^ (n * b)) := by
        rw [Nat.shiftRight_eq_div_pow, Nat.mul_comm, Nat.add_comm]
      _ = v % 2 ^ ((n + 1) * b) := by rw [← Nat.mod_mul, ← Nat.pow_add, Nat.succ_mul, Nat.add_comm b]

theorem intToCells_cellsToInt {b : Nat} (x : Block) (hx : ∀ v ∈ x, v < 2 ^ b) :
    intToCells (cellsToInt x b) x.length b = x := by
  induction x using List.reverseRecOn with
  | nil => rfl
  | append_singleton x v ih =>
    have hv : v < 2 ^ b := hx v (by simp)
    have hhigh : (cellsToInt x b * 2 ^ b + v) >>> b = cellsToInt x b := by
      rw [Nat.shiftRight_eq_div_pow, Nat.mul_comm, Nat.mul_add_div (Nat.two_pow_pos b), Nat.div_eq_of_lt hv,
        Nat.add_zero]
    have hlow : (cellsToInt x b * 2 ^ b + v) % 2 ^ b = v := by
      rw [Nat.mul_add_mod_self_right, Nat.mod_eq_of_lt hv]
    rw [List.length_append, List.length_singleton, intToCells_succ, cellsToInt_concat, hhigh, hlow,
      ih fun w hw => hx w (by simp [hw])]

/-- Settles O29: the two inverse laws hold for cells of any width. -/
theorem codecInverseLaw : Obligations.CodecInverseLaw :=
  ⟨fun v n b _ hv => (cellsToInt_intToCells v n b).trans (Nat.mod_eq_of_lt hv),
    fun v n b _ => cellsToInt_intToCells v n b,
    fun x _ _ hx => intToCells_cellsToInt x hx⟩

-- loads, with any `din`, and reads

theorem slice_zero {v width : Nat} (hw : 0 < width) : slice v (width - 1) 0 = v % 2 ^ width := by
  rw [slice, Nat.sub_zero, Nat.sub_add_cancel hw, Nat.shiftRight_zero]

theorem cellsToInt_dinBlock (s : State) : cellsToInt (dinBlock s) s.cfg.nbits = s.din % 2 ^ s.cfg.W := by
  rw [dinBlock, cellsToInt_intToCells, slice_zero s.engine.W_pos]
  exact Nat.mod_mod ..

theorem exec_lds_dinBlock (s : State) : exec .lds s = .next ((s.writeS (dinBlock s)).answer 0) := rfl

section
variable {s : State}

theorem exec_ldrk_dinBlock {r : Idx} (hr : r.toNat < s.cfg.nrounds) :
    exec (.ldrk r) s = .next ((s.writeRk r.toNat (dinBlock s)).answer 0) := by
  rw [exec, execLdrk, rkIndex_of_lt hr]
  rfl

theorem exec_ldtk_dinBlock {j : Idx} (hj : j.toNat < 4) :
    exec (.ldtk j) s = .next ((s.writeTk j.toNat (dinBlock s)).answer 0) := by
  rw [exec, execLdtk, tkIndex_of_lt hj]
  rfl

theorem exec_rdrk {r : Idx} {k : Block} (hr : r.toNat < s.cfg.nrounds) (hk : s.rkVal r.toNat = some k) :
    exec (.rdrk r) s = .next (s.answer (cellsToInt k s.cfg.nbits)) := by
  rw [exec, execRdrk, rkIndex_of_lt hr, State.readRk_eq_ok.mpr hk]
  rfl

theorem exec_rdtk {j : Idx} {k : Block} (hj : j.toNat < 4) (hk : s.tkVal j.toNat = some k) :
    exec (.rdtk j) s = .next (s.answer (cellsToInt k s.cfg.nbits)) := by
  rw [exec, execRdtk, tkIndex_of_lt hj, State.readTk_eq_ok.mpr hk]
  rfl

end

/-- Reading back the loaded block on the same engine answers the truncated `din`. -/
theorem answer_dinBlock_resp {s t : State} (hengine : t.engine = s.engine) :
    (t.answer (cellsToInt (dinBlock s) t.cfg.nbits)).resp = okResp (s.din % 2 ^ s.cfg.W) := by
  rw [State.cfg, hengine]
  exact congrArg okResp (cellsToInt_dinBlock s)

/-- Settles O24, register by register: the load leaves `dinBlock s` where the read finds it. -/
theorem loadThenReadTruncates : Obligations.LoadThenReadTruncates := by
  refine ⟨fun s => ?_, fun s r hlen hr => ?_, fun s j hj => ?_⟩
  · exact ⟨_, _, exec_lds_dinBlock s, exec_rds rfl, answer_dinBlock_resp rfl⟩
  · have hval : (s.writeRk r.toNat (dinBlock s)).rkVal r.toNat = some (dinBlock s) := by
      simp [State.rkVal_writeRk (hlen.symm ▸ hr)]
    exact ⟨_, _, exec_ldrk_dinBlock hr, exec_rdrk hr hval, answer_dinBlock_resp rfl⟩
  · have hval : (s.writeTk j.toNat (dinBlock s)).tkVal j.toNat = some (dinBlock s) := by
      simp [State.tkVal_writeTk hj]
    exact ⟨_, _, exec_ldtk_dinBlock hj, exec_rdtk hj hval, answer_dinBlock_resp (s.writeTk_engine _ _)⟩

-- the word rotation

/-- R86's amount, brought into `[0, width)`. -/
def rotation (w : Nat) (a : Int) : Nat := (a % (w : Int)).toNat

theorem rotation_lt {w : Nat} (a : Int) (hw : 1 ≤ w) : rotation w a < w := by
  have hpos : (0 : Int) < w := by omega
  have hlt := Int.emod_lt_of_pos a hpos
  have hnonneg := Int.emod_nonneg a hpos.ne'
  unfold rotation
  omega

/-- The bit that R86's rotation takes bit `k` to, with an amount of either sign. -/
theorem toNat_add_emod {w : Nat} (k : Nat) (a : Int) (hw : 1 ≤ w) :
    (((k : Int) + a) % (w : Int)).toNat = (k + rotation w a) % w := by
  have hnonneg : 0 ≤ a % (w : Int) := Int.emod_nonneg a (by omega)
  rw [← Int.add_emod_emod, ← Int.toNat_of_nonneg hnonneg]
  exact Int.toNat_natCast _

/-- The rotation by 0 is no special case: nothing is shifted round. -/
theorem rotateLeft_eq (v w : Nat) (a : Int) :
    rotateLeft v w a =
      ((v % 2 ^ w) <<< rotation w a) % 2 ^ w ^^^ (v % 2 ^ w) >>> (w - rotation w a) := by
  rw [rotateLeft]
  split
  next hzero =>
    rw [rotation, hzero, Nat.sub_zero, Nat.shiftLeft_zero, Nat.mod_mod, Nat.shiftRight_eq_div_pow,
      Nat.div_eq_of_lt (Nat.mod_lt _ (Nat.two_pow_pos w)), Nat.xor_zero]
  next => rfl

theorem rotateLeft_lt (v w : Nat) (a : Int) : rotateLeft v w a < 2 ^ w := by
  have hpos := Nat.two_pow_pos w
  rw [rotateLeft_eq]
  exact Nat.xor_lt_two_pow (Nat.mod_lt _ hpos) ((Nat.shiftRight_le ..).trans_lt (Nat.mod_lt _ hpos))

/-- A bit stays in the word shifted left, or leaves it at the top and comes back at the bottom. -/
theorem testBit_rotateLeft {v w k : Nat} (a : Int) (hk : k < w) :
    (rotateLeft v w a).testBit ((k + rotation w a) % w) = v.testBit k := by
  have ha : rotation w a < w := rotation_lt a (by omega)
  rw [rotateLeft_eq]
  by_cases hstays : k + rotation w a < w
  · have hbeyond : ¬ w - rotation w a + (k + rotation w a) < w := by omega
    simp [Nat.mod_eq_of_lt hstays, Nat.testBit_mod_two_pow, hstays, hk, hbeyond]
  · have hround : (k + rotation w a) % w = k + rotation w a - w := by
      rw [Nat.mod_eq_sub_mod (by omega), Nat.mod_eq_of_lt (by omega)]
    have hback : w - rotation w a + (k + rotation w a - w) = k := by omega
    have hbelow : ¬ rotation w a ≤ k + rotation w a - w := by omega
    simp [hround, Nat.testBit_mod_two_pow, hk, hback, hbelow]

/-- Settles O30: `rotateLeft_lt`, and `testBit_rotateLeft` for an amount brought into `[0, width)`. -/
theorem rotateLeftMovesEveryBit : Obligations.RotateLeftMovesEveryBit := by
  intro v w a hw
  refine ⟨rotateLeft_lt v w a, fun k hk => ?_⟩
  rw [toNat_add_emod k a hw, testBit_rotateLeft a hk]

end Sys2Proof.Machine
end

