-- ==== Sys2Proof/Proofs/BitPolynomials.lean ====
section
/-! A natural number as the polynomial over GF(2) whose coefficients are its bits (spec/41_field_ops.md R100 to R102):
XOR is addition, a shift is a product with a power of `X`, `polyRem` is division with remainder, and V6 of R9 is
irreducibility. -/

namespace Sys2Proof.Machine

open Polynomial

/-- The polynomial over GF(2) whose coefficient of `X ^ i` is bit `i`. -/
noncomputable def bitPoly (v : Nat) : (ZMod 2)[X] := ∑ i ∈ Finset.range v, if v.testBit i then X ^ i else 0

@[simp] theorem coeff_bitPoly (v i : Nat) : (bitPoly v).coeff i = if v.testBit i then 1 else 0 := by
  have hterm (k : Nat) : (if v.testBit k then (X : (ZMod 2)[X]) ^ k else 0).coeff i =
      if i = k then (if v.testBit i then 1 else 0) else 0 := by
    by_cases hik : i = k
    · subst hik; split <;> simp
    · split <;> simp [coeff_X_pow, hik]
  have hhigh (hi : v ≤ i) : v.testBit i = false :=
    Nat.testBit_lt_two_pow (Nat.lt_of_lt_of_le Nat.lt_two_pow_self (Nat.pow_le_pow_right (by decide) hi))
  simp only [bitPoly, finsetSum_coeff, hterm, Finset.sum_ite_eq, Finset.mem_range]
  by_cases hi : i < v
  · rw [if_pos hi]
  · simp [hi, hhigh (Nat.le_of_not_lt hi)]

theorem bitPoly_injective : Function.Injective bitPoly := by
  intro a b h
  have hbit : ∀ p q : Bool, (if p then (1 : ZMod 2) else 0) = (if q then 1 else 0) → p = q := by decide
  exact Nat.eq_of_testBit_eq fun i => hbit _ _ (by simpa only [coeff_bitPoly] using congrArg (coeff · i) h)

@[simp] theorem bitPoly_zero : bitPoly 0 = 0 := by ext i; simp

@[simp] theorem bitPoly_one : bitPoly 1 = 1 := by simp [bitPoly]

theorem bitPoly_eq_zero_iff {v : Nat} : bitPoly v = 0 ↔ v = 0 := by
  rw [← bitPoly_zero, bitPoly_injective.eq_iff]

@[simp] theorem bitPoly_xor (a b : Nat) : bitPoly (a ^^^ b) = bitPoly a + bitPoly b := by
  ext i
  rw [coeff_add, coeff_bitPoly, coeff_bitPoly, coeff_bitPoly, Nat.testBit_xor]
  cases a.testBit i <;> cases b.testBit i <;> decide

@[simp] theorem bitPoly_shiftLeft (a k : Nat) : bitPoly (a <<< k) = X ^ k * bitPoly a := by
  ext i
  rw [coeff_X_pow_mul', coeff_bitPoly, coeff_bitPoly, Nat.testBit_shiftLeft]
  by_cases hki : k ≤ i <;> simp [hki]

-- degrees

theorem degree_bitPoly_lt {v n : Nat} (hv : v < 2 ^ n) : (bitPoly v).degree < n := by
  refine (degree_lt_iff_coeff_zero _ _).mpr fun i hi => ?_
  rw [coeff_bitPoly, Nat.testBit_lt_two_pow (Nat.lt_of_lt_of_le hv (Nat.pow_le_pow_right (by decide) hi))]
  rfl

theorem le_degree_bitPoly {v n : Nat} (hn : v.testBit n = true) : n ≤ (bitPoly v).degree :=
  le_degree_of_ne_zero (by simp [hn])

/-- Every polynomial over GF(2) of degree below `n` is that of an `n`-bit number. -/
theorem exists_bitPoly_eq {q : (ZMod 2)[X]} {n : Nat} (hq : q.degree < n) : ∃ d < 2 ^ n, bitPoly d = q := by
  refine ⟨Nat.ofBits fun i : Fin n => decide (q.coeff i = 1), Nat.ofBits_lt_two_pow _, ?_⟩
  have hbit : ∀ c : ZMod 2, (if decide (c = 1) = true then 1 else 0) = c := by decide
  ext i
  rw [coeff_bitPoly]
  by_cases hi : i < n
  · rw [Nat.testBit_ofBits_lt _ _ hi]
    exact hbit _
  · rw [Nat.testBit_ofBits_ge _ _ (Nat.le_of_not_lt hi),
      (degree_lt_iff_coeff_zero q n).mp hq i (Nat.le_of_not_lt hi)]
    rfl

-- division with remainder

/-- An `n+1`-bit number whose leading bit is 0 has `n` bits. -/
theorem lt_two_pow_of_testBit_eq_false {a n : Nat} (ha : a < 2 ^ (n + 1)) (hn : a.testBit n = false) :
    a < 2 ^ n := by
  refine Nat.lt_pow_two_of_testBit _ fun i hi => ?_
  rcases Nat.eq_or_lt_of_le hi with rfl | hlt
  · exact hn
  · exact Nat.testBit_lt_two_pow (Nat.lt_of_lt_of_le ha (Nat.pow_le_pow_right (by decide) hlt))

/-- One pass of `polyRem`: subtract `d`, shifted by `k`, when its leading bit is set in `r`. -/
def remStep (d r k : Nat) : Nat := if r.testBit (d.log2 + k) then r ^^^ (d <<< k) else r

theorem polyRem_eq_foldl (n a d : Nat) : polyRem n a d = (List.range (n + 1)).reverse.foldl (remStep d) a := rfl

theorem remStep_lt {d r k : Nat} (hd : d ≠ 0) (hr : r < 2 ^ (d.log2 + k + 1)) : remStep d r k < 2 ^ (d.log2 + k) := by
  have hshift : d <<< k < 2 ^ (d.log2 + k + 1) := by
    rw [Nat.shiftLeft_eq, Nat.add_right_comm, Nat.pow_add]
    exact Nat.mul_lt_mul_of_pos_right Nat.lt_log2_self (Nat.two_pow_pos k)
  unfold remStep
  split
  next hbit =>
    refine lt_two_pow_of_testBit_eq_false (Nat.xor_lt_two_pow hr hshift) ?_
    simp [Nat.testBit_xor, hbit, Nat.testBit_shiftLeft, Nat.testBit_log2 hd]
  next hbit => exact lt_two_pow_of_testBit_eq_false hr (by simpa using hbit)

theorem dvd_bitPoly_remStep_sub (d r k : Nat) : bitPoly d ∣ bitPoly (remStep d r k) - bitPoly r := by
  unfold remStep
  split
  · rw [bitPoly_xor, bitPoly_shiftLeft, add_sub_cancel_left]
    exact dvd_mul_left _ _
  · rw [sub_self]
    exact dvd_zero _

/-- The passes for the shifts below `m` leave a remainder, congruent to what they began with. -/
theorem remSteps_spec {d : Nat} (hd : d ≠ 0) (m : Nat) {r : Nat} (hr : r < 2 ^ (d.log2 + m)) :
    (List.range m).reverse.foldl (remStep d) r < 2 ^ d.log2 ∧
      bitPoly d ∣ bitPoly ((List.range m).reverse.foldl (remStep d) r) - bitPoly r := by
  induction m generalizing r with
  | zero => exact ⟨hr, by simp⟩
  | succ m ih =>
    rw [List.range_succ, List.reverse_append]
    obtain ⟨hlt, hdvd⟩ := ih (remStep_lt hd hr)
    refine ⟨hlt, ?_⟩
    have hsum := dvd_add hdvd (dvd_bitPoly_remStep_sub d r m)
    rwa [sub_add_sub_cancel] at hsum

/-- `polyRem` is 0 on the multiples of `d`. -/
theorem polyRem_eq_zero_of_dvd {n a d : Nat} (hd : d ≠ 0) (ha : a < 2 ^ (n + 1)) (hdvd : bitPoly d ∣ bitPoly a) :
    polyRem n a d = 0 := by
  have hbound : a < 2 ^ (d.log2 + (n + 1)) := Nat.lt_of_lt_of_le ha (Nat.pow_le_pow_right (by decide) (by omega))
  obtain ⟨hlt, hrem⟩ := remSteps_spec hd (n + 1) hbound
  rw [← polyRem_eq_foldl] at hlt hrem
  rw [← bitPoly_eq_zero_iff]
  refine eq_zero_of_dvd_of_degree_lt ((dvd_sub_left hdvd).mp hrem) ?_
  exact (degree_bitPoly_lt hlt).trans_le (le_degree_bitPoly (Nat.testBit_log2 hd))

-- the reduction polynomial

theorem Engine.nbits_pos (e : Engine) : 0 < e.cfg.nbits := by
  have h := e.sizes
  simp only [sizesOk, Bool.and_eq_true, decide_eq_true_eq] at h
  obtain ⟨⟨⟨⟨⟨-, hnbits⟩, -⟩, -⟩, -⟩, -⟩ := h
  exact hnbits

theorem Engine.degree_poly (e : Engine) : (bitPoly e.cfg.poly).degree = e.cfg.nbits :=
  le_antisymm (Order.le_of_lt_succ (degree_bitPoly_lt e.poly_lt)) (le_degree_bitPoly e.poly_degree)

theorem Engine.natDegree_poly (e : Engine) : (bitPoly e.cfg.poly).natDegree = e.cfg.nbits :=
  natDegree_eq_of_degree_eq_some e.degree_poly

theorem Engine.monic_poly (e : Engine) : (bitPoly e.cfg.poly).Monic :=
  monic_of_natDegree_le_of_coeff_eq_one _ e.natDegree_poly.le (by simp [e.poly_degree])

/-- V6 as it is checked: no remainder by a polynomial of a lower degree than `POLY`, but for the constants, is 0. -/
theorem Engine.polyRem_ne_zero (e : Engine) {d : Nat} (hd : 2 ≤ d) (hlt : d < 2 ^ e.cfg.nbits) :
    polyRem e.cfg.nbits e.cfg.poly d ≠ 0 := by
  have h := e.polyIrreducible
  simp only [Machine.polyIrreducible, Bool.and_eq_true, List.all_eq_true, List.mem_range, Bool.or_eq_true,
    decide_eq_true_eq, bne_iff_ne] at h
  obtain ⟨-, hrem⟩ := h
  exact (hrem d hlt).resolve_left (Nat.not_lt.mpr hd)

/-- V6 of R9: the trial division finds every proper factor, so a `POLY` that passes it is irreducible. -/
theorem Engine.irreducible_poly (e : Engine) : Irreducible (bitPoly e.cfg.poly) := by
  have hne : bitPoly e.cfg.poly ≠ 1 := fun h => by
    have hdeg := e.natDegree_poly
    rw [h, natDegree_one] at hdeg
    exact e.nbits_pos.ne hdeg
  rw [e.monic_poly.irreducible_iff_lt_natDegree_lt hne]
  intro q hq hdeg hdvd
  rw [e.natDegree_poly, Finset.mem_Ioc] at hdeg
  obtain ⟨hpos, hhalf⟩ := hdeg
  obtain ⟨d, hlt, rfl⟩ := exists_bitPoly_eq ((natDegree_lt_iff_degree_lt (n := e.cfg.nbits) hq.ne_zero).mp (by omega))
  have hd : 2 ≤ d := by
    by_contra hsmall
    obtain rfl | rfl : d = 0 ∨ d = 1 := by omega
    all_goals simp at hpos
  exact e.polyRem_ne_zero hd hlt (polyRem_eq_zero_of_dvd (by omega) e.poly_lt hdvd)

end Sys2Proof.Machine
end

