-- ==== Sys2Proof/Proofs/Field.lean ====
section
/-! The field that `gfmul` computes in (spec/41_field_ops.md R100 to R102): a cell stands for the class of its bit
polynomial modulo `POLY`, different cells for different classes, and `gfmul` for the product of the classes. -/

namespace Sys2Proof.Machine

-- the bits of a factor, one at a time

/-- The low `k + 1` bits are the low `k` bits with bit `k` put in front. -/
theorem mod_two_pow_succ_eq_xor (b k : Nat) :
    b % 2 ^ (k + 1) = if b.testBit k then b % 2 ^ k ^^^ 1 <<< k else b % 2 ^ k := by
  refine Nat.eq_of_testBit_eq fun i => ?_
  rw [Nat.shiftLeft_eq, Nat.one_mul]
  by_cases hik : i = k
  · subst hik
    split <;> simp_all [Nat.testBit_mod_two_pow]
  · have hlt : i < k + 1 ↔ i < k := by omega
    split <;> simp [Nat.testBit_mod_two_pow, Nat.testBit_two_pow_of_ne (Ne.symm hik), hlt]

-- the field

/-- GF(2)[X] modulo `POLY`. -/
abbrev CellField (c : Cfg) : Type := AdjoinRoot (bitPoly c.poly)

/-- The element of the field that a cell stands for. -/
noncomputable def fieldElem (c : Cfg) (v : Cell) : CellField c := AdjoinRoot.mk _ (bitPoly v)

section
variable (c : Cfg)

@[simp] theorem fieldElem_zero : fieldElem c 0 = 0 := by simp [fieldElem]

@[simp] theorem fieldElem_one : fieldElem c 1 = 1 := by simp [fieldElem]

@[simp] theorem fieldElem_poly : fieldElem c c.poly = 0 := AdjoinRoot.mk_self

@[simp] theorem fieldElem_xor (a b : Cell) : fieldElem c (a ^^^ b) = fieldElem c a + fieldElem c b := by
  simp [fieldElem]

@[simp] theorem fieldElem_shiftLeft (a k : Nat) :
    fieldElem c (a <<< k) = AdjoinRoot.root (bitPoly c.poly) ^ k * fieldElem c a := by
  simp [fieldElem]

-- the procedure of R101, pass by pass

/-- Doubling is the product with the class of `X`, reduced or not. -/
theorem fieldElem_gfdouble (t : Nat) :
    fieldElem c (gfdouble c.nbits c.poly t) = AdjoinRoot.root (bitPoly c.poly) * fieldElem c t := by
  unfold gfdouble
  split
  · rw [fieldElem_xor, fieldElem_poly, add_zero, fieldElem_shiftLeft, pow_one]
  · rw [fieldElem_shiftLeft, pow_one]

/-- After `k` passes `r` is the product with the low `k` bits of `b`, and `t` has been doubled `k` times. -/
theorem fieldElem_gfmulPasses (a b k : Nat) :
    fieldElem c ((List.range k).foldl (gfmulPass c.nbits c.poly b) (0, a)).1 =
      fieldElem c a * fieldElem c (b % 2 ^ k) ∧
    fieldElem c ((List.range k).foldl (gfmulPass c.nbits c.poly b) (0, a)).2 =
      AdjoinRoot.root (bitPoly c.poly) ^ k * fieldElem c a := by
  induction k with
  | zero => simp [Nat.mod_one]
  | succ k ih =>
    obtain ⟨hr, ht⟩ := ih
    rw [List.range_succ, List.foldl_append, List.foldl_cons, List.foldl_nil, gfmulPass]
    refine ⟨?_, by rw [fieldElem_gfdouble, ht]; ring⟩
    rw [mod_two_pow_succ_eq_xor]
    split
    · rw [fieldElem_xor, fieldElem_xor, fieldElem_shiftLeft, hr, ht, fieldElem_one]
      ring
    · exact hr

/-- `gfmul` is the product of the field. -/
theorem fieldElem_gfmul (a : Cell) {b : Cell} (hb : b < 2 ^ c.nbits) :
    fieldElem c (gfmul c a b) = fieldElem c a * fieldElem c b := by
  obtain ⟨hr, -⟩ := fieldElem_gfmulPasses c a b c.nbits
  rwa [Nat.mod_eq_of_lt hb] at hr

end

-- cells are elements

theorem fieldElem_eq_zero_iff (e : Engine) {a : Cell} (ha : a < 2 ^ e.cfg.nbits) : fieldElem e.cfg a = 0 ↔ a = 0 := by
  refine ⟨fun h => ?_, fun h => by rw [h, fieldElem_zero]⟩
  rw [← bitPoly_eq_zero_iff]
  refine Polynomial.eq_zero_of_dvd_of_degree_lt (AdjoinRoot.mk_eq_zero.mp h) ?_
  rw [e.degree_poly]
  exact degree_bitPoly_lt ha

/-- Different cells stand for different elements: their XOR is 0 only when they agree. -/
theorem fieldElem_inj (e : Engine) {a b : Cell} (ha : a < 2 ^ e.cfg.nbits) (hb : b < 2 ^ e.cfg.nbits)
    (h : fieldElem e.cfg a = fieldElem e.cfg b) : a = b := by
  have hself : fieldElem e.cfg b + fieldElem e.cfg b = 0 := by rw [← fieldElem_xor, Nat.xor_self, fieldElem_zero]
  have hxor : fieldElem e.cfg (a ^^^ b) = 0 := by rw [fieldElem_xor, h, hself]
  exact Nat.xor_eq_zero_iff.mp ((fieldElem_eq_zero_iff e (Nat.xor_lt_two_pow ha hb)).mp hxor)

theorem one_lt_two_pow_nbits (e : Engine) : 1 < 2 ^ e.cfg.nbits := Nat.one_lt_two_pow e.nbits_pos.ne'

/-- Settles O32: each law is that of the field, since equal elements are equal cells. -/
theorem fieldMultiplicationIsARing : Obligations.FieldMultiplicationIsARing := by
  intro e a b c ha hb hc
  have hab := gfmul_lt e b ha
  have hbc := gfmul_lt e c hb
  have hone := one_lt_two_pow_nbits e
  refine ⟨hab, fieldElem_inj e hab (gfmul_lt e a hb) ?_, fieldElem_inj e (gfmul_lt e c hab) (gfmul_lt e _ ha) ?_,
    fieldElem_inj e (gfmul_lt e _ ha) (Nat.xor_lt_two_pow hab (gfmul_lt e c ha)) ?_,
    fieldElem_inj e (gfmul_lt e b hone) hb ?_, fieldElem_inj e (gfmul_lt e 1 ha) ha ?_⟩
  · rw [fieldElem_gfmul _ a hb, fieldElem_gfmul _ b ha, mul_comm]
  · rw [fieldElem_gfmul _ _ hc, fieldElem_gfmul _ a hb, fieldElem_gfmul _ a hbc, fieldElem_gfmul _ b hc, mul_assoc]
  · rw [fieldElem_gfmul _ a (Nat.xor_lt_two_pow hb hc), fieldElem_xor, fieldElem_xor, fieldElem_gfmul _ a hb,
      fieldElem_gfmul _ a hc, mul_add]
  · rw [fieldElem_gfmul _ 1 hb, fieldElem_one, one_mul]
  · rw [fieldElem_gfmul _ a hone, fieldElem_one, mul_one]

/-- `POLY` is irreducible, so it divides a product only when it divides a factor. -/
theorem gfmul_eq_zero (e : Engine) {a b : Cell} (ha : a < 2 ^ e.cfg.nbits) (hb : b < 2 ^ e.cfg.nbits)
    (h : gfmul e.cfg a b = 0) : a = 0 ∨ b = 0 := by
  have hprod : fieldElem e.cfg a * fieldElem e.cfg b = 0 := by rw [← fieldElem_gfmul _ a hb, h, fieldElem_zero]
  have hdvd : bitPoly e.cfg.poly ∣ bitPoly a * bitPoly b := by
    rw [← AdjoinRoot.mk_eq_zero, map_mul]
    exact hprod
  exact (e.irreducible_poly.prime.dvd_or_dvd hdvd).imp
    (fun hda => (fieldElem_eq_zero_iff e ha).mp (AdjoinRoot.mk_eq_zero.mpr hda))
    (fun hdb => (fieldElem_eq_zero_iff e hb).mp (AdjoinRoot.mk_eq_zero.mpr hdb))

/-- A product with a non-zero cell determines the other factor: the difference of two such factors is a zero divisor. -/
theorem gfmul_left_cancel (e : Engine) {a b b' : Cell} (hpos : 0 < a) (ha : a < 2 ^ e.cfg.nbits)
    (hb : b < 2 ^ e.cfg.nbits) (hb' : b' < 2 ^ e.cfg.nbits) (h : gfmul e.cfg a b = gfmul e.cfg a b') : b = b' := by
  have hxor := Nat.xor_lt_two_pow hb hb'
  obtain ⟨-, -, -, hdistrib, -⟩ := fieldMultiplicationIsARing e a b b' ha hb hb'
  have hzero : gfmul e.cfg a (b ^^^ b') = 0 := by rw [hdistrib, h, Nat.xor_self]
  exact Nat.xor_eq_zero_iff.mp ((gfmul_eq_zero e ha hxor hzero).resolve_left hpos.ne')

/-- The products with one cell, as a map of the finite set of cells. -/
def mulBy (e : Engine) {a : Cell} (ha : a < 2 ^ e.cfg.nbits) (b : Fin (2 ^ e.cfg.nbits)) : Fin (2 ^ e.cfg.nbits) :=
  ⟨gfmul e.cfg a b, gfmul_lt e b ha⟩

/-- An injective map of a finite set meets every value, so every product is met. -/
theorem exists_gfmul_eq (e : Engine) {a v : Cell} (hpos : 0 < a) (ha : a < 2 ^ e.cfg.nbits) (hv : v < 2 ^ e.cfg.nbits) :
    ∃ b < 2 ^ e.cfg.nbits, gfmul e.cfg a b = v := by
  have hinj : Function.Injective (mulBy e ha) := fun b b' h =>
    Fin.ext (gfmul_left_cancel e hpos ha b.isLt b'.isLt (congrArg Fin.val h))
  obtain ⟨b, hb⟩ := Finite.surjective_of_injective hinj ⟨v, hv⟩
  exact ⟨b, b.isLt, congrArg Fin.val hb⟩

/-- Settles O33: no zero divisors because `POLY` is irreducible, and inverses by counting the cells. -/
theorem fieldMultiplicationHasInverses : Obligations.FieldMultiplicationHasInverses := by
  refine fun e => ⟨fun a b => gfmul_eq_zero e, fun a hpos ha => ?_⟩
  obtain ⟨b, hb, hab⟩ := exists_gfmul_eq e hpos ha (one_lt_two_pow_nbits e)
  exact ⟨b, ⟨hb, hab⟩, fun b' hb' hab' => gfmul_left_cancel e hpos ha hb' hb (hab'.trans hab.symm)⟩

end Sys2Proof.Machine
end

