-- ==== Sys2Proof/Proofs/Layers.lean ====
section
/-! The four layers of the function layer and their inverses (spec/41_field_ops.md R103 to R108): tables that undo each
other, cell-wise XOR, and the matrix step as a product with a matrix over the field of `gfmul`. -/

namespace Sys2Proof.Machine

/-- Blocks of one length are equal when their cells are. -/
theorem block_ext {x y : Block} (hlen : x.length = y.length) (h : ∀ i < x.length, x.getD i 0 = y.getD i 0) : x = y := by
  refine List.ext_getElem hlen fun i hx hy => ?_
  simpa [List.getD, hx, hy] using h i hx

theorem blockFits_length {c : Cfg} {x : Block} (hx : blockFits c x = true) : x.length = c.ncells :=
  (blockFits_iff.mp hx).1

theorem blockFits_lt {c : Cfg} {x : Block} (hx : blockFits c x = true) {v : Cell} (hv : v ∈ x) : v < 2 ^ c.nbits :=
  (blockFits_iff.mp hx).2 v hv

theorem blockFits_getD_lt {c : Cfg} {x : Block} (hx : blockFits c x = true) (i : Nat) : x.getD i 0 < 2 ^ c.nbits := by
  by_cases hi : i < x.length
  · simpa [List.getD, hi] using blockFits_lt hx (List.getElem_mem hi)
  · simp [List.getD, hi]

-- addition (R105)

theorem add_length {a b : Block} (h : a.length = b.length) : (add a b).length = a.length := by simp [add, h]

theorem add_getElem {a b : Block} {i : Nat} (hi : i < (add a b).length) :
    (add a b)[i] = a[i]'(by simp [add] at hi; omega) ^^^ b[i]'(by simp [add] at hi; omega) :=
  List.getElem_zipWith

theorem add_assoc_cells (a b c : Block) : add (add a b) c = add a (add b c) :=
  List.ext_getElem (by simp [add, Nat.min_assoc]) fun i _ _ => by
    simp only [add_getElem, Nat.xor_assoc]

theorem add_comm_cells (a b : Block) : add a b = add b a := List.zipWith_comm_of_comm Nat.xor_comm

theorem add_zeros (a : Block) : add a (List.replicate a.length 0) = a :=
  List.ext_getElem (add_length (by simp)) fun i _ _ => by simp [add_getElem]

theorem add_self_cells (a : Block) : add a a = List.replicate a.length 0 :=
  List.ext_getElem (by simp [add]) fun i _ _ => by simp [add_getElem]

/-- Adding a key twice restores the block (R108). -/
theorem add_add_self {a b : Block} (h : a.length = b.length) : add (add a b) b = a := by
  rw [add_assoc_cells, add_self_cells, ← h, add_zeros]

/-- Settles O31, law by law. -/
theorem addLaws : Obligations.AddLaws := by
  refine ⟨fun a b i ha hb => ?_, fun a b c _ _ => add_assoc_cells a b c,
    fun a b h => ⟨add_comm_cells a b, add_add_self h⟩, fun a => ⟨add_zeros a, add_self_cells a⟩, fun _ _ => rfl⟩
  have hi : i < (add a b).length := by simp [add, ha, hb]
  rw [List.getElem?_eq_getElem hi, add_getElem]
  simp [List.getD, ha, hb]

-- substitution (R103)

/-- A table undoes another on the cells where it does so entry by entry. -/
theorem substitute_substitute {x : Block} {t u : List Cell} (h : ∀ v ∈ x, u.getD (t.getD v 0) 0 = v) :
    substitute (substitute x t) u = x := by
  simp only [substitute, List.map_map]
  exact (List.map_congr_left h).trans (List.map_id' x)

theorem sbox_sboxInv (e : Engine) {v : Cell} (hv : v < 2 ^ e.cfg.nbits) :
    e.cfg.sbox.getD ((sboxInv e.cfg).getD v 0) 0 = v := by
  have hmem : v ∈ e.cfg.sbox := (isPermutation_perm e.sboxPerm).mem_iff.mpr (List.mem_range.mpr hv)
  have hentry : (sboxInv e.cfg).getD v 0 = e.cfg.sbox.idxOf v := by simp [sboxInv, List.getD, hv]
  rw [hentry]
  simp [List.getD, List.idxOf_lt_length_of_mem hmem]

/-- `SBOX_INV` is a right inverse by its definition, and a left inverse because `SBOX` takes no value twice. -/
theorem sboxInv_sbox (e : Engine) {v : Cell} (hv : v < 2 ^ e.cfg.nbits) :
    (sboxInv e.cfg).getD (e.cfg.sbox.getD v 0) 0 = v := by
  have hsbox := isPermutation_getD_lt e.sboxPerm hv
  exact isPermutation_getD_inj e.sboxPerm (sboxInv_getD_lt e hsbox) hv (sbox_sboxInv e hsbox)

section
variable (e : Engine) {x : Block} (hx : blockFits e.cfg x = true)
include hx

theorem substitute_sbox_sboxInv : substitute (substitute x e.cfg.sbox) (sboxInv e.cfg) = x :=
  substitute_substitute fun _ hv => sboxInv_sbox e (blockFits_lt hx hv)

theorem substitute_sboxInv_sbox : substitute (substitute x (sboxInv e.cfg)) e.cfg.sbox = x :=
  substitute_substitute fun _ hv => sbox_sboxInv e (blockFits_lt hx hv)

end

-- permutation (R104)

theorem permute_getD {x : Block} {ps : List Nat} {i : Nat} (hi : i < ps.length) :
    (permute x ps).getD i 0 = x.getD (ps.getD i 0) 0 := by
  simp [permute, List.getD, hi]

theorem isPermutation_length {n : Nat} {t : List Nat} (h : isPermutation n t = true) : t.length = n := by
  simpa using (isPermutation_perm h).length_eq

/-- Gathering from `ps` and then from `qs` gathers from the positions `ps[qs[i]]`. -/
theorem permute_permute {x : Block} {n : Nat} {ps qs : List Nat} (hlen : x.length = n)
    (hps : isPermutation n ps = true) (hqs : isPermutation n qs = true)
    (h : ∀ i < n, ps.getD (qs.getD i 0) 0 = i) : permute (permute x ps) qs = x := by
  have hpslen := isPermutation_length hps
  have hqslen := isPermutation_length hqs
  have hpermuted : (permute (permute x ps) qs).length = n := by simp [permute, hqslen]
  refine block_ext (hpermuted.trans hlen.symm) fun i hi => ?_
  rw [hpermuted] at hi
  rw [permute_getD (by omega), permute_getD (hpslen.symm ▸ isPermutation_getD_lt hqs hi), h i hi]

section
variable (e : Engine) {x : Block} (hx : blockFits e.cfg x = true)
include hx

theorem permute_pbox_pboxInv : permute (permute x e.cfg.pbox) e.cfg.pboxInv = x :=
  permute_permute (blockFits_length hx) e.pboxPerm e.pboxInvPerm fun _ => e.pbox_pboxInv

theorem permute_pboxInv_pbox : permute (permute x e.cfg.pboxInv) e.cfg.pbox = x :=
  permute_permute (blockFits_length hx) e.pboxInvPerm e.pboxPerm fun _ => e.pboxInv_pbox

end

-- the matrix step as R106's double loop

theorem matrixFits_iff {c : Cfg} {m : List (List Cell)} :
    matrixFits c m = true ↔ m.length = c.ncells ∧ ∀ row ∈ m, blockFits c row = true := by
  simp [matrixFits, blockFits]

theorem matrixFits_row {c : Cfg} {m : List (List Cell)} (hm : matrixFits c m = true) {j : Nat} (hj : j < c.ncells) :
    blockFits c (m.getD j []) = true := by
  obtain ⟨hlen, hrows⟩ := matrixFits_iff.mp hm
  have hj : j < m.length := hlen ▸ hj
  simpa [List.getD, hj] using hrows _ (List.getElem_mem hj)

theorem rowProduct_eq_loop {c : Cfg} {row x : Block} (hrow : row.length = c.ncells) (hx : x.length = c.ncells) :
    rowProduct c row x =
      (List.range c.ncells).foldl (fun acc i => acc ^^^ gfmul c (row.getD i 0) (x.getD i 0)) 0 := by
  have hterms : List.zipWith (gfmul c) row x =
      (List.range c.ncells).map fun i => gfmul c (row.getD i 0) (x.getD i 0) := by
    refine List.ext_getElem (by simp [hrow, hx]) fun i hi _ => ?_
    obtain ⟨hirow, hix⟩ : i < row.length ∧ i < x.length := by simpa using hi
    simp [List.getD, hirow, hix]
  rw [rowProduct, hterms, List.foldl_map]
  rfl

theorem matrixMultiply_getD {c : Cfg} {x : Block} {m : List (List Cell)} {j : Nat} (hj : j < m.length) :
    (matrixMultiply c x m).getD j 0 = rowProduct c (m.getD j []) x := by
  simp [matrixMultiply, List.getD, hj]

theorem matrixMultiply_eq_loops {c : Cfg} {x : Block} {m : List (List Cell)} (hx : blockFits c x = true)
    (hm : matrixFits c m = true) :
    matrixMultiply c x m = (List.range c.ncells).map fun j => (List.range c.ncells).foldl
      (fun acc i => acc ^^^ gfmul c ((m.getD j []).getD i 0) (x.getD i 0)) 0 := by
  obtain ⟨hlen, -⟩ := matrixFits_iff.mp hm
  refine block_ext (by simp [matrixMultiply, hlen]) fun j hj => ?_
  have hj : j < c.ncells := by simpa [matrixMultiply, hlen] using hj
  rw [matrixMultiply_getD (hlen ▸ hj),
    rowProduct_eq_loop (blockFits_length (matrixFits_row hm hj)) (blockFits_length hx)]
  simp [List.getD, hj]

-- the matrix step over the field

/-- A block as a vector over the field. -/
noncomputable def blockVec (c : Cfg) (x : Block) : Fin c.ncells → CellField c := fun i => fieldElem c (x.getD i 0)

/-- A list of rows as a matrix over the field. -/
noncomputable def cellMatrix (c : Cfg) (m : List (List Cell)) : Matrix (Fin c.ncells) (Fin c.ncells) (CellField c) :=
  Matrix.of fun j => blockVec c (m.getD j [])

theorem fieldElem_foldl_xor (c : Cfg) (f : Nat → Cell) (n : Nat) :
    fieldElem c ((List.range n).foldl (fun acc i => acc ^^^ f i) 0) = ∑ i ∈ Finset.range n, fieldElem c (f i) := by
  induction n with
  | zero => simp
  | succ n ih => rw [List.range_succ, List.foldl_append, List.foldl_cons, List.foldl_nil, fieldElem_xor, ih,
      Finset.sum_range_succ]

theorem fieldElem_rowProduct {c : Cfg} {row x : Block} (hrow : row.length = c.ncells) (hx : blockFits c x = true) :
    fieldElem c (rowProduct c row x) = blockVec c row ⬝ᵥ blockVec c x := by
  rw [rowProduct_eq_loop hrow (blockFits_length hx), fieldElem_foldl_xor, Finset.sum_range]
  exact Finset.sum_congr rfl fun i _ => fieldElem_gfmul c _ (blockFits_getD_lt hx i)

theorem blockVec_matrixMultiply {c : Cfg} {x : Block} {m : List (List Cell)} (hx : blockFits c x = true)
    (hm : matrixFits c m = true) : blockVec c (matrixMultiply c x m) = (cellMatrix c m).mulVec (blockVec c x) := by
  obtain ⟨hlen, -⟩ := matrixFits_iff.mp hm
  funext j
  rw [blockVec, matrixMultiply_getD (j.isLt.trans_eq hlen.symm)]
  exact fieldElem_rowProduct (blockFits_length (matrixFits_row hm j.isLt)) hx

theorem blockVec_inj (e : Engine) {x y : Block} (hx : blockFits e.cfg x = true) (hy : blockFits e.cfg y = true)
    (h : blockVec e.cfg x = blockVec e.cfg y) : x = y := by
  have hxlen := blockFits_length hx
  have hylen := blockFits_length hy
  refine block_ext (hxlen.trans hylen.symm) fun i hi => ?_
  exact fieldElem_inj e (blockFits_getD_lt hx i) (blockFits_getD_lt hy i) (congrFun h ⟨i, hxlen ▸ hi⟩)

/-- V5 of R9, and P2 of R10, as an equation between matrices. -/
theorem cellMatrix_mul_eq_one {c : Cfg} {a b : List (List Cell)} (ha : matrixFits c a = true)
    (hb : matrixFits c b = true) (h : productIsIdentity c a b = true) : cellMatrix c a * cellMatrix c b = 1 := by
  obtain ⟨hblen, hbrows⟩ := matrixFits_iff.mp hb
  simp only [productIsIdentity, List.all_eq_true, List.mem_range, beq_iff_eq] at h
  ext j i
  have hcolumn : blockFits c (b.map fun row => row.getD i 0) = true := by
    refine blockFits_iff.mpr ⟨by simp [hblen], fun v hv => ?_⟩
    obtain ⟨row, hrow, rfl⟩ := List.mem_map.mp hv
    exact blockFits_getD_lt (hbrows row hrow) i
  have hentries : blockVec c (b.map fun row => row.getD i 0) = fun t => cellMatrix c b t i := by
    funext t
    have ht : (t : Nat) < b.length := t.isLt.trans_eq hblen.symm
    simp [blockVec, cellMatrix, List.getD, ht]
  calc (cellMatrix c a * cellMatrix c b) j i
      = blockVec c (a.getD j []) ⬝ᵥ blockVec c (b.map fun row => row.getD i 0) := by rw [hentries]; rfl
    _ = fieldElem c (if (j : Nat) = i then 1 else 0) := by
      rw [← fieldElem_rowProduct (blockFits_length (matrixFits_row ha j.isLt)) hcolumn, h j j.isLt i i.isLt]
    _ = (1 : Matrix (Fin c.ncells) (Fin c.ncells) (CellField c)) j i := by
      rw [Matrix.one_apply, apply_ite (fieldElem c), fieldElem_one, fieldElem_zero]
      simp only [Fin.ext_iff]

/-- A matrix undoes another whose left inverse it is over the field. -/
theorem matrixMultiply_matrixMultiply (e : Engine) {x : Block} {a b : List (List Cell)} (hx : blockFits e.cfg x = true)
    (ha : matrixFits e.cfg a = true) (hb : matrixFits e.cfg b = true)
    (h : cellMatrix e.cfg a * cellMatrix e.cfg b = 1) :
    matrixMultiply e.cfg (matrixMultiply e.cfg x b) a = x := by
  have hbx := matrixMultiply_fits e x hb
  refine blockVec_inj e (matrixMultiply_fits e _ ha) hx ?_
  rw [blockVec_matrixMultiply hbx ha, blockVec_matrixMultiply hx hb, Matrix.mulVec_mulVec, h, Matrix.one_mulVec]

/-- V5 as it is checked. -/
theorem Engine.mInv_mul_m (e : Engine) : cellMatrix e.cfg e.cfg.mInv * cellMatrix e.cfg e.cfg.m = 1 := by
  have h := e.tablesOk
  simp only [Machine.tablesOk, Bool.and_eq_true] at h
  obtain ⟨-, hidentity⟩ := h
  exact cellMatrix_mul_eq_one e.mInvFits e.mFits hidentity

section
variable (e : Engine) {x : Block} (hx : blockFits e.cfg x = true)
include hx

theorem matrixMultiply_m_mInv : matrixMultiply e.cfg (matrixMultiply e.cfg x e.cfg.m) e.cfg.mInv = x :=
  matrixMultiply_matrixMultiply e hx e.mInvFits e.mFits e.mInv_mul_m

/-- The order that is not checked: a left inverse of a square matrix over a commutative ring is a right one. -/
theorem matrixMultiply_mInv_m : matrixMultiply e.cfg (matrixMultiply e.cfg x e.cfg.mInv) e.cfg.m = x :=
  matrixMultiply_matrixMultiply e hx e.mFits e.mInvFits (mul_eq_one_comm.mp e.mInv_mul_m)

end

/-- Settles O34, layer by layer. -/
theorem inverseOperationsUndo : Obligations.InverseOperationsUndo := fun e _ _ hx hk =>
  ⟨substitute_sbox_sboxInv e hx, substitute_sboxInv_sbox e hx, permute_pbox_pboxInv e hx, permute_pboxInv_pbox e hx,
    matrixMultiply_m_mInv e hx, matrixMultiply_mInv_m e hx,
    add_add_self ((blockFits_length hx).trans (blockFits_length hk).symm)⟩

end Sys2Proof.Machine
end

