-- ==== Sys2Proof/Proofs/LayerCommands.lean ====
section
/-! The single-layer commands on the machine (spec/41_field_ops.md R109 to R118): from what a command does to the block
in `S`, its equation on the whole state. -/

namespace Sys2Proof.Machine

-- from the block to the state

section
variable {s : State} {i : Instr} {is : List Instr} {x y : Block} (hx : s.S = some x)
include hx

theorem exec_holding (i : Instr) : exec i (s.holding x) = exec i s := by
  rw [State.holding_of_S hx]
  exact exec_withResp i s _

theorem exec_of_maps (h : Maps s i x y) : exec i s = .next { s with S := some y, resp := okResp 0 } := by
  rw [← exec_holding hx]
  exact h

theorem execAll_of_mapsAll (h : MapsAll s (i :: is) x x) : execAll (i :: is) s = .next { s with resp := okResp 0 } := by
  rw [← State.holding_of_S hx, ← h, execAll, execAll, exec_holding hx]

/-- Two commands that undo each other restore the state. -/
theorem execAll_of_undo {j : Instr} (h : Maps s i x y) (hback : Maps s j y x) :
    execAll [i, j] s = .next { s with resp := okResp 0 } :=
  execAll_of_mapsAll hx (.cons h (.single hback))

end

-- the low `W` bits of `din`

theorem intToCells_mod (v n b : Nat) : intToCells (v % 2 ^ (n * b)) n b = intToCells v n b := by
  have hlen : (intToCells v n b).length = n := by simp [intToCells]
  have hcells : ∀ w ∈ intToCells v n b, w < 2 ^ b := by
    intro w hw
    obtain ⟨i, -, rfl⟩ := List.mem_map.mp hw
    exact Nat.mod_lt _ (Nat.two_pow_pos b)
  have hback := intToCells_cellsToInt (intToCells v n b) hcells
  rwa [cellsToInt_intToCells, hlen] at hback

/-- The codec discards the bits above `W` itself. -/
theorem dinBlock_eq (s : State) : dinBlock s = intToCells s.din s.cfg.ncells s.cfg.nbits := by
  rw [dinBlock, slice_zero s.engine.W_pos]
  exact intToCells_mod _ _ _

theorem maps_addd (s : State) (x : Block) : Maps s .addd x (add x (dinBlock s)) :=
  maps_of_transform (f := fun x => add x (dinBlock s)) rfl

/-- A command that adds one key, whatever the block, restores the state when it is executed twice. -/
theorem execAll_add_twice {s : State} {i : Instr} {x k : Block} (hx : s.S = some x)
    (h : ∀ x, Maps s i x (add x k)) (hlen : x.length = k.length) :
    execAll [i, i] s = .next { s with resp := okResp 0 } := by
  have hback : Maps s i (add x k) (add (add x k) k) := h _
  rw [add_add_self hlen] at hback
  exact execAll_of_undo hx (h x) hback

/-- Settles O25: `SUBI` looks up in `SBOX_INV`, which `SBOX` undoes. -/
theorem substitutionCommands : Obligations.SubstitutionCommands :=
  ⟨fun s x hx => exec_of_maps hx (maps_sub s x), fun s x hx hfits =>
    ⟨substitute x (sboxInv s.cfg), exec_of_maps hx (maps_subi s x), substituteSboxInv_fits s.engine hfits,
      substitute_sboxInv_sbox s.engine hfits⟩⟩

/-- Settles O26: the P-boxes undo each other in both orders. -/
theorem permutationCommands : Obligations.PermutationCommands := by
  refine ⟨fun s x hx => ⟨exec_of_maps hx (maps_prm s x), exec_of_maps hx (maps_prmi s x)⟩, fun s x hx hfits => ?_⟩
  have hprmi := maps_prmi s (permute x s.cfg.pbox)
  have hprm := maps_prm s (permute x s.cfg.pboxInv)
  rw [permute_pbox_pboxInv s.engine hfits] at hprmi
  rw [permute_pboxInv_pbox s.engine hfits] at hprm
  exact ⟨execAll_of_undo hx (maps_prm s x) hprmi, execAll_of_undo hx (maps_prmi s x) hprm⟩

/-- Settles O27: both matrices are square, so row by row the products are R106's loops. -/
theorem matrixCommands : Obligations.MatrixCommands := by
  intro s x hx hfits product
  have hm : matrixMultiply s.cfg x s.cfg.m = product s.cfg.m := matrixMultiply_eq_loops hfits s.engine.mFits
  have hmInv : matrixMultiply s.cfg x s.cfg.mInv = product s.cfg.mInv :=
    matrixMultiply_eq_loops hfits s.engine.mInvFits
  exact ⟨hm ▸ exec_of_maps hx (maps_mmul s x), hmInv ▸ exec_of_maps hx (maps_mmuli s x)⟩

/-- Settles O28, command by command: each adds one key, `ADDD` the block on `din`. -/
theorem additionCommands : Obligations.AdditionCommands := by
  refine ⟨fun s r x k hr hx hk => ?_, fun s j x k hj hx hk => ?_, fun s x hx => ?_⟩
  · exact ⟨exec_of_maps hx (maps_addrk hr hk x), execAll_add_twice hx (maps_addrk hr hk)⟩
  · exact ⟨exec_of_maps hx (maps_addtk hj hk x), execAll_add_twice hx (maps_addtk hj hk)⟩
  · have hlen := blockFits_length (dinBlock_fits s)
    rw [← dinBlock_eq]
    exact ⟨exec_of_maps hx (maps_addd s x), fun h => execAll_add_twice hx (maps_addd s) (h.trans hlen.symm)⟩

end Sys2Proof.Machine
end

