-- ==== Sys2Proof/Proofs/SpnCipher.lean ====
section
/-! The SPN cipher of the function layer (spec/42_spn_cipher.md R130 to R138): a round is a keyed layer, a permutation
and an optional matrix step, each with an inverse, so that the two rounds undo each other and a fold of rounds is
undone key by key, the last key first; and the key schedule as chunks of the master key. -/

namespace Sys2Proof.Machine

-- a round in three steps (R130, R131)

/-- The first two steps of a forward round, in the order the configuration names. -/
def keyedLayer (c : Cfg) (x k : Block) : Block :=
  match c.roundOrder with
  | .sap => add (substitute x c.sbox) k
  | .asp => substitute (add x k) c.sbox

/-- The last two steps of an inverse round. -/
def keyedLayerInv (c : Cfg) (x k : Block) : Block :=
  match c.roundOrder with
  | .sap => substitute (add x k) (sboxInv c)
  | .asp => add (substitute x (sboxInv c)) k

/-- The matrix step of a forward round, where the configuration has one. -/
def mixLayer (c : Cfg) (x : Block) : Block := if c.diffusionInRound then matrixMultiply c x c.m else x

/-- The matrix step of an inverse round. -/
def mixLayerInv (c : Cfg) (x : Block) : Block := if c.diffusionInRound then matrixMultiply c x c.mInv else x

theorem forwardRound_eq_layers (c : Cfg) (x k : Block) :
    forwardRound c x k = mixLayer c (permute (keyedLayer c x k) c.pbox) := rfl

theorem inverseRound_eq_layers (c : Cfg) (x k : Block) :
    inverseRound c x k = keyedLayerInv c (permute (mixLayerInv c x) c.pboxInv) k := rfl

section
variable (e : Engine) {x : Block} (hx : blockFits e.cfg x = true)
include hx

theorem mixLayerInv_fits : blockFits e.cfg (mixLayerInv e.cfg x) = true := by
  unfold mixLayerInv
  split
  · exact matrixMultiply_fits e x e.mInvFits
  · exact hx

theorem mixLayerInv_mixLayer : mixLayerInv e.cfg (mixLayer e.cfg x) = x := by
  unfold mixLayerInv mixLayer
  split
  · exact matrixMultiply_m_mInv e hx
  · rfl

theorem mixLayer_mixLayerInv : mixLayer e.cfg (mixLayerInv e.cfg x) = x := by
  unfold mixLayer mixLayerInv
  split
  · exact matrixMultiply_mInv_m e hx
  · rfl

end

section
variable (e : Engine) {x k : Block} (hx : blockFits e.cfg x = true) (hk : blockFits e.cfg k = true)
include hx hk

theorem add_add_key : add (add x k) k = x :=
  add_add_self ((blockFits_length hx).trans (blockFits_length hk).symm)

theorem keyedLayer_fits : blockFits e.cfg (keyedLayer e.cfg x k) = true := by
  unfold keyedLayer
  split
  · exact add_fits (substituteSbox_fits e hx) hk
  · exact substituteSbox_fits e (add_fits hx hk)

theorem keyedLayerInv_keyedLayer : keyedLayerInv e.cfg (keyedLayer e.cfg x k) k = x := by
  unfold keyedLayerInv keyedLayer
  split
  · rw [add_add_key e (substituteSbox_fits e hx) hk, substitute_sbox_sboxInv e hx]
  · rw [substitute_sbox_sboxInv e (add_fits hx hk), add_add_key e hx hk]

theorem keyedLayer_keyedLayerInv : keyedLayer e.cfg (keyedLayerInv e.cfg x k) k = x := by
  unfold keyedLayer keyedLayerInv
  split
  · rw [substitute_sboxInv_sbox e (add_fits hx hk), add_add_key e hx hk]
  · rw [add_add_key e (substituteSboxInv_fits e hx) hk, substitute_sboxInv_sbox e hx]

theorem inverseRound_forwardRound : inverseRound e.cfg (forwardRound e.cfg x k) k = x := by
  have hkeyed := keyedLayer_fits e hx hk
  rw [forwardRound_eq_layers, inverseRound_eq_layers, mixLayerInv_mixLayer e (permute_fits hkeyed e.pboxPerm),
    permute_pbox_pboxInv e hkeyed, keyedLayerInv_keyedLayer e hx hk]

theorem forwardRound_inverseRound : forwardRound e.cfg (inverseRound e.cfg x k) k = x := by
  have hunmixed := mixLayerInv_fits e hx
  rw [inverseRound_eq_layers, forwardRound_eq_layers,
    keyedLayer_keyedLayerInv e (permute_fits hunmixed e.pboxInvPerm) hk, permute_pboxInv_pbox e hunmixed,
    mixLayer_mixLayerInv e hx]

end

/-- Settles O42: the three steps of a round are undone one by one, in either round order, with and without the matrix
step. -/
theorem roundsAreMutuallyInverse : Obligations.RoundsAreMutuallyInverse := fun e _ _ hx hk =>
  ⟨inverseRound_forwardRound e hx hk, forwardRound_inverseRound e hx hk⟩

-- a fold of rounds (R137, R138)

/-- Steps that are undone one by one are undone as a whole by going through the keys backward. -/
theorem foldl_reverse_foldl {c : Cfg} {f g : Block → Block → Block} {ks : List Block} {x : Block}
    (hf : ∀ x k, blockFits c x = true → blockFits c k = true → blockFits c (f x k) = true)
    (hgf : ∀ x k, blockFits c x = true → blockFits c k = true → g (f x k) k = x)
    (hks : ∀ k ∈ ks, blockFits c k = true) (hx : blockFits c x = true) :
    ks.reverse.foldl g (ks.foldl f x) = x := by
  induction ks generalizing x with
  | nil => rfl
  | cons k ks ih =>
    obtain ⟨hk, hks⟩ := List.forall_mem_cons.mp hks
    rw [List.foldl_cons, List.reverse_cons, List.foldl_append, ih hks (hf x k hx hk)]
    exact hgf x k hx hk

section
variable (e : Engine) {x : Block} {ks : List Block} (n : Nat) (hx : blockFits e.cfg x = true)
  (hks : ∀ k ∈ ks, blockFits e.cfg k = true)
include hx hks

theorem decryptRounds_encryptRounds : decryptRounds e.cfg (encryptRounds e.cfg x ks n) ks n = x :=
  foldl_reverse_foldl (fun _ _ => forwardRound_fits e) (fun _ _ => inverseRound_forwardRound e)
    (fun k hk => hks k (List.mem_of_mem_take hk)) hx

theorem encryptRounds_decryptRounds : encryptRounds e.cfg (decryptRounds e.cfg x ks n) ks n = x := by
  have h := foldl_reverse_foldl (ks := (ks.take n).reverse) (fun _ _ => inverseRound_fits e)
    (fun _ _ => forwardRound_inverseRound e)
    (fun k hk => hks k (List.mem_of_mem_take (List.mem_reverse.mp hk))) hx
  rwa [List.reverse_reverse] at h

end

-- the key schedule (R133)

/-- The low `m` cells of an integer stand behind the cells of what is above them. -/
theorem intToCells_add (v n m b : Nat) :
    intToCells v (n + m) b = intToCells (v >>> (m * b)) n b ++ intToCells v m b := by
  induction m generalizing v with
  | zero => simp
  | succ m ih =>
    rw [← Nat.add_assoc, intToCells_succ, ih, intToCells_succ v m, ← List.append_assoc, ← Nat.shiftRight_add,
      Nat.succ_mul, Nat.add_comm b]

/-- `n` groups of `m` cells, the most significant first, are `n * m` cells. -/
theorem flatten_intToCells (v n m b : Nat) :
    ((List.range n).map fun r => intToCells (v >>> (m * b * (n - 1 - r))) m b).flatten = intToCells v (n * m) b := by
  induction n generalizing v with
  | zero => simp
  | succ n ih =>
    have hfront : ∀ r ∈ List.range n, intToCells (v >>> (m * b * (n + 1 - 1 - r))) m b =
        intToCells ((v >>> (m * b)) >>> (m * b * (n - 1 - r))) m b := by
      intro r hr
      have hlt : r < n := List.mem_range.mp hr
      rw [← Nat.shiftRight_add, show n + 1 - 1 - r = (n - 1 - r) + 1 by omega, Nat.mul_succ, Nat.add_comm (m * b)]
    rw [List.range_succ, List.map_append, List.map_congr_left hfront, List.flatten_append, ih, Nat.succ_mul,
      intToCells_add]
    simp

/-- R133's shift formula for chunk `r`. -/
theorem slice_chunk {c : Cfg} {r : Nat} (mk : Nat) (hW : 0 < c.W) (hr : r < c.nrounds) :
    slice mk (c.KW - 1 - r * c.W) (c.KW - (r + 1) * c.W) = (mk >>> (c.W * (c.nrounds - 1 - r))) % 2 ^ c.W := by
  obtain ⟨d, hd⟩ : ∃ d, c.nrounds = r + 1 + d := Nat.exists_eq_add_of_le hr
  have hKW : c.KW = r * c.W + c.W + d * c.W := by rw [Cfg.KW, hd, Nat.add_mul, Nat.succ_mul]
  have hlow : c.KW - (r + 1) * c.W = c.W * (c.nrounds - 1 - r) := by
    rw [hKW, Nat.succ_mul, show c.nrounds - 1 - r = d by omega, Nat.mul_comm c.W]
    omega
  have hwidth : c.KW - 1 - r * c.W - (c.KW - (r + 1) * c.W) + 1 = c.W := by
    rw [hKW, Nat.succ_mul]
    omega
  rw [slice, hwidth, hlow]

theorem keySchedule_eq_chunks (e : Engine) (mk : Nat) :
    keySchedule e.cfg mk = (List.range e.cfg.nrounds).map fun r =>
      intToCells ((mk >>> (e.cfg.W * (e.cfg.nrounds - 1 - r))) % 2 ^ e.cfg.W) e.cfg.ncells e.cfg.nbits :=
  List.map_congr_left fun r hr => by rw [slice_chunk mk e.W_pos (List.mem_range.mp hr)]

/-- Settles O37: the codec drops the bits above a chunk itself, so the chunks are the groups of cells. -/
theorem keyScheduleCutsTheMasterKey : Obligations.KeyScheduleCutsTheMasterKey := by
  intro e mk
  refine ⟨keySchedule_length _ mk, fun k hk => blockFits_length (keySchedule_fits _ mk k hk), ?_⟩
  rw [keySchedule_eq_chunks, ← flatten_intToCells]
  simp only [Cfg.W, intToCells_mod]

-- whole encryption and decryption (R134 to R136)

section
variable {c : Cfg} {p : BlockArg} {x : Block}

theorem toBlock_int_eq_ok {v : Nat} :
    (BlockArg.int v).toBlock c = .ok x ↔ v < 2 ^ c.W ∧ intToCells v c.ncells c.nbits = x := by
  by_cases h : v < 2 ^ c.W <;> simp [BlockArg.toBlock, h]

theorem toBlock_cells_eq_ok {z : Block} : (BlockArg.cells z).toBlock c = .ok x ↔ blockFits c z = true ∧ z = x := by
  by_cases h : z.length = c.ncells ∧ ∀ v ∈ z, v < 2 ^ c.nbits
  · simp [BlockArg.toBlock, if_pos h, blockFits_iff.mpr h]
  · simp [BlockArg.toBlock, if_neg h, mt blockFits_iff.mp h]

theorem toBlock_fits (hp : p.toBlock c = .ok x) : blockFits c x = true := by
  cases p with
  | int v =>
    obtain ⟨-, rfl⟩ := toBlock_int_eq_ok.mp hp
    exact intToCells_fits c v
  | cells z =>
    obtain ⟨hz, rfl⟩ := toBlock_cells_eq_ok.mp hp
    exact hz

/-- A result passes the size checks and stands for its block. -/
theorem like_toBlock (p : BlockArg) (hx : blockFits c x = true) : (p.like c x).toBlock c = .ok x := by
  cases p with
  | int v =>
    have hback := intToCells_cellsToInt x fun _ => blockFits_lt hx
    rw [blockFits_length hx] at hback
    exact toBlock_int_eq_ok.mpr ⟨cellsToInt_lt hx, hback⟩
  | cells z => exact toBlock_cells_eq_ok.mpr ⟨hx, rfl⟩

/-- An argument that passes the size checks is its own block in the representation of any result for it. -/
theorem like_like (y : Block) (hp : p.toBlock c = .ok x) : (p.like c y).like c x = p := by
  cases p with
  | int v =>
    obtain ⟨hv, rfl⟩ := toBlock_int_eq_ok.mp hp
    exact congrArg BlockArg.int ((cellsToInt_intToCells v c.ncells c.nbits).trans (Nat.mod_eq_of_lt hv))
  | cells z =>
    obtain ⟨-, rfl⟩ := toBlock_cells_eq_ok.mp hp
    rfl

variable {key : Nat} (hp : p.toBlock c = .ok x) (hkey : key < 2 ^ c.KW)
include hp hkey

theorem encrypt_of_toBlock :
    encrypt c p key = .ok (p.like c (encryptRounds c x (keySchedule c key) c.nrounds)) := by
  rw [encrypt, hp, checkedKey, if_pos hkey]
  rfl

theorem decrypt_of_toBlock :
    decrypt c p key = .ok (p.like c (decryptRounds c x (keySchedule c key) c.nrounds)) := by
  rw [decrypt, hp, checkedKey, if_pos hkey]
  rfl

end

section
variable (e : Engine) {p : BlockArg} {x : Block} {key : Nat} (hp : p.toBlock e.cfg = .ok x)
  (hkey : key < 2 ^ e.cfg.KW)
include hp hkey

theorem exists_encrypt_decrypt : ∃ y, encrypt e.cfg p key = .ok y ∧ decrypt e.cfg y key = .ok p := by
  have hx := toBlock_fits hp
  have hks := keySchedule_fits e.cfg key
  refine ⟨_, encrypt_of_toBlock hp hkey, ?_⟩
  rw [decrypt_of_toBlock (like_toBlock p (encryptRounds_fits e _ hx hks)) hkey,
    decryptRounds_encryptRounds e _ hx hks, like_like _ hp]

theorem exists_decrypt_encrypt : ∃ y, decrypt e.cfg p key = .ok y ∧ encrypt e.cfg y key = .ok p := by
  have hx := toBlock_fits hp
  have hks := keySchedule_fits e.cfg key
  refine ⟨_, decrypt_of_toBlock hp hkey, ?_⟩
  rw [encrypt_of_toBlock (like_toBlock p (decryptRounds_fits e _ hx hks)) hkey,
    encryptRounds_decryptRounds e _ hx hks, like_like _ hp]

end

/-- An engine is its configuration (R7). -/
theorem Engine.eq_of_cfg_eq {e e' : Engine} (h : e.cfg = e'.cfg) : e = e' := by
  cases e
  cases e'
  cases h
  rfl

/-- Settles O43: what `encrypt` returns passes the checks of `decrypt` in the same representation, and the rounds
cancel under the key schedule of one master key. -/
theorem decryptInvertsEncrypt : Obligations.DecryptInvertsEncrypt := by
  refine ⟨fun e p x key hp hkey => ?_, fun e e' script k h => ?_⟩
  · exact ⟨exists_encrypt_decrypt e hp hkey, exists_decrypt_encrypt e hp hkey⟩
  · rw [Engine.eq_of_cfg_eq h]

end Sys2Proof.Machine
end

