-- ==== Sys2Proof/Proofs/SpnCommands.lean ====
section
/-! The SPN cipher commands on the machine (spec/42_spn_cipher.md R139 to R146), and the two reflector round commands
that share their meaning (spec/43_reflector.md R182, R183). -/

namespace Sys2Proof.Machine

-- `KSCH` (R140)

theorem exec_ksch_of_wide {s : State} (h : s.din >>> s.cfg.KW ≠ 0) : exec .ksch s = .next (s.raise .size) := by
  rw [exec, execKsch, dinKey_of_wide h]
  rfl

theorem holdsRoundKeys_writeRks (s : State) {n : Nat} {ks : List Block} (hlen : ks.length = n) :
    HoldsRoundKeys (s.writeRks ks) n ks :=
  hlen ▸ holdsRoundKeys_of_RK rfl

/-- Where `RK` holds all `NROUNDS` round keys, every `RKV` pin is set (R29). -/
theorem pins_rkv_of_holdsRoundKeys {s : State} {ks : List Block} (h : HoldsRoundKeys s s.cfg.nrounds ks) :
    s.pins.rkv = List.replicate s.cfg.nrounds true := by
  obtain ⟨hlen, hval⟩ := h
  refine List.eq_replicate_iff.mpr ⟨by simp [State.pins], fun b hb => ?_⟩
  obtain ⟨r, hr, rfl⟩ := List.mem_map.mp hb
  have hr : r < s.cfg.nrounds := List.mem_range.mp hr
  simp [State.RKV, hval r hr, hlen, hr]

/-- Settles O36: `RK` holds the key schedule, which is the master key's chunks. -/
theorem kschWritesTheChunks : Obligations.KschWritesTheChunks := by
  refine ⟨fun s h => ?_, fun s h => exec_ksch_of_wide h⟩
  have hfits : s.din < 2 ^ s.cfg.KW := by
    rw [Nat.shiftRight_eq_div_pow] at h
    exact (Nat.div_eq_zero_iff_lt (Nat.two_pow_pos _)).mp h
  have hkeys : HoldsRoundKeys ((s.writeRks (keySchedule s.cfg s.din)).answer 0) s.cfg.nrounds
      (keySchedule s.cfg s.din) :=
    holdsRoundKeys_writeRks s (keySchedule_length s.cfg s.din)
  refine ⟨_, exec_ksch hfits, rfl, by simp [keySchedule_length], pins_rkv_of_holdsRoundKeys hkeys, fun r hr => ?_⟩
  obtain ⟨-, hval⟩ := hkeys
  rw [hval r hr, keySchedule_eq_chunks]
  simp [hr]

-- one round (R141, R142, R182, R183)

/-- Settles O38, command by command. -/
theorem roundCommands : Obligations.RoundCommands :=
  ⟨fun _ _ x _ hr hx hk => ⟨exec_of_maps hx (maps_rndf hr hk x), exec_of_maps hx (maps_rndi hr hk x)⟩,
    fun _ _ x _ hj hx hk => ⟨exec_of_maps hx (maps_rndft hj hk x), exec_of_maps hx (maps_rndit hj hk x)⟩⟩

-- many rounds (R143 to R146)

section
variable {ks : List Block} {n : Nat} (hlen : ks.length = n) (c : Cfg) (x : Block)
include hlen

theorem encryptRounds_eq_foldl : encryptRounds c x ks n = ks.foldl (forwardRound c) x := by
  rw [encryptRounds, List.take_of_length_le hlen.le]

/-- Going through the keys backward is a fold from the right. -/
theorem decryptRounds_eq_foldr : decryptRounds c x ks n = ks.foldr (fun k y => inverseRound c y k) x := by
  rw [decryptRounds, List.take_of_length_le hlen.le, List.foldl_reverse]

end

/-- Settles O39: with exactly the keys it needs, a command uses all the keys it reads. -/
theorem cipherCommands : Obligations.CipherCommands := by
  refine ⟨fun s x ks hx hks => ?_, fun s n x ks hn hx hks => ?_⟩
  · rw [← encryptRounds_eq_foldl hks.1, ← decryptRounds_eq_foldr hks.1]
    exact ⟨exec_of_maps hx (maps_enc hks x), exec_of_maps hx (maps_dec hks x)⟩
  · rw [← encryptRounds_eq_foldl hks.1, ← decryptRounds_eq_foldr hks.1]
    exact ⟨exec_of_maps hx (maps_encr hn hks x), exec_of_maps hx (maps_decr hn hks x)⟩

-- round trips

theorem State.Fits.blockFits_of_S {s : State} (h : s.Fits) {x : Block} (hx : s.S = some x) :
    blockFits s.cfg x = true :=
  h.readS (State.readS_eq_ok.mpr hx)

theorem State.RKV_eq_true_iff {s : State} {r : Nat} : s.RKV r = true ↔ ∃ k, s.rkVal r = some k :=
  Option.isSome_iff_exists

/-- Where the first `n` valid bits are set, reading the first `n` round keys succeeds. -/
theorem exists_readRks {s : State} {n : Nat} (h : ∀ r < n, s.RKV r = true) : ∃ ks, s.readRks n = .ok ks := by
  refine ⟨(List.range n).map fun r => (s.rkVal r).getD [], State.readRks_eq_ok.mpr ?_⟩
  rw [List.map_map]
  refine List.map_congr_left fun r hr => ?_
  obtain ⟨k, hk⟩ := State.RKV_eq_true_iff.mp (h r (List.mem_range.mp hr))
  simp [hk]

/-- A command that maps every block by `f` and one that maps every block by `g` restore the state where `g` undoes
`f`. -/
theorem execAll_of_leftInverse {s : State} {i j : Instr} {x : Block} {f g : Block → Block} (hx : s.S = some x)
    (hi : ∀ x, Maps s i x (f x)) (hj : ∀ x, Maps s j x (g x)) (h : g (f x) = x) :
    execAll [i, j] s = .next { s with resp := okResp 0 } := by
  have hback : Maps s j (f x) (g (f x)) := hj _
  rw [h] at hback
  exact execAll_of_undo hx (hi x) hback

section
variable {s : State} {x : Block} (hs : s.Fits) (hx : s.S = some x)
include hs hx

theorem execAll_enc_dec (h : ∀ r < s.cfg.nrounds, s.RKV r = true) :
    execAll [.enc, .dec] s = .next { s with resp := okResp 0 } ∧
      execAll [.dec, .enc] s = .next { s with resp := okResp 0 } := by
  obtain ⟨ks, hread⟩ := exists_readRks h
  have hheld : HoldsRoundKeys s s.cfg.nrounds ks := State.readRks_entries hread
  have hxfits := hs.blockFits_of_S hx
  have hks := hs.readRks hread
  exact ⟨execAll_of_leftInverse hx (maps_enc hheld) (maps_dec hheld)
      (decryptRounds_encryptRounds s.engine _ hxfits hks),
    execAll_of_leftInverse hx (maps_dec hheld) (maps_enc hheld)
      (encryptRounds_decryptRounds s.engine _ hxfits hks)⟩

theorem execAll_encr_decr {n : Idx} (hn : n.toNat ≤ s.cfg.nrounds) (h : ∀ r < n.toNat, s.RKV r = true) :
    execAll [.encr n, .decr n] s = .next { s with resp := okResp 0 } := by
  obtain ⟨ks, hread⟩ := exists_readRks h
  have hheld : HoldsRoundKeys s n.toNat ks := State.readRks_entries hread
  exact execAll_of_leftInverse hx (maps_encr hn hheld) (maps_decr hn hheld)
    (decryptRounds_encryptRounds s.engine _ (hs.blockFits_of_S hx) (hs.readRks hread))

theorem execAll_rndf_rndi {r : Idx} (hr : r.toNat < s.cfg.nrounds) (h : s.RKV r.toNat = true) :
    execAll [.rndf r, .rndi r] s = .next { s with resp := okResp 0 } ∧
      execAll [.rndi r, .rndf r] s = .next { s with resp := okResp 0 } := by
  obtain ⟨k, hk⟩ := State.RKV_eq_true_iff.mp h
  have hxfits := hs.blockFits_of_S hx
  have hkfits := hs.rkVal hk
  exact ⟨execAll_of_leftInverse hx (maps_rndf hr hk) (maps_rndi hr hk)
      (inverseRound_forwardRound s.engine hxfits hkfits),
    execAll_of_leftInverse hx (maps_rndi hr hk) (maps_rndf hr hk)
      (forwardRound_inverseRound s.engine hxfits hkfits)⟩

end

/-- Settles O44: the block and the round keys of a well-formed state fit the engine, so that the rounds cancel. -/
theorem spnCommandsRoundTrip : Obligations.SpnCommandsRoundTrip := by
  intro s x hwf hx
  obtain ⟨hs, -, -⟩ := State.wf_iff.mp hwf
  exact ⟨execAll_enc_dec hs hx, fun n => execAll_encr_decr hs hx, fun r => execAll_rndf_rndi hs hx⟩

end Sys2Proof.Machine
end

