-- ==== Sys2Proof/Proofs/ReflectorCipher.lean ====
section
/-! The reflector cipher of the function layer (spec/43_reflector.md R170 to R178): the sub-keys bit by bit, the middle
layer as an involution, half-rounds as a fold over one key, and encryption undone by the relabelled tuple. -/

namespace Sys2Proof.Machine

-- the sub-keys as integers (R171)

/-- `k0p` as a function of the half `k0` alone (R171). -/
def foldedHalf (c : Cfg) (k0 : Nat) : Nat := rotateLeft k0 c.W (c.W - 1) ^^^ (k0 >>> (c.W - 1))

theorem reflectorSubkeys_k0p (c : Cfg) (mk : Nat) :
    (reflectorSubkeys c mk).k0p = foldedHalf c (reflectorSubkeys c mk).k0 := rfl

theorem reflectorSubkeys_k1a (c : Cfg) (mk : Nat) :
    (reflectorSubkeys c mk).k1a = (reflectorSubkeys c mk).k1 ^^^ c.alpha := rfl

theorem reflectorSubkeys_k1 (e : Engine) (mk : Nat) : (reflectorSubkeys e.cfg mk).k1 = mk % 2 ^ e.cfg.W :=
  slice_zero e.W_pos

theorem reflectorSubkeys_k0 (e : Engine) (mk : Nat) :
    (reflectorSubkeys e.cfg mk).k0 = mk / 2 ^ e.cfg.W % 2 ^ e.cfg.W := by
  have hW := e.W_pos
  have hwidth : 2 * e.cfg.W - 1 - e.cfg.W + 1 = e.cfg.W := by omega
  rw [reflectorSubkeys, slice, hwidth, Nat.shiftRight_eq_div_pow]

theorem reflectorSubkeys_k0_lt (e : Engine) (mk : Nat) : (reflectorSubkeys e.cfg mk).k0 < 2 ^ e.cfg.W := by
  rw [reflectorSubkeys_k0]
  exact Nat.mod_lt _ (Nat.two_pow_pos _)

theorem reflectorSubkeys_k0_of_lt (e : Engine) {mk : Nat} (hmk : mk < 2 ^ e.cfg.TKW) :
    (reflectorSubkeys e.cfg mk).k0 = mk / 2 ^ e.cfg.W := by
  have hhigh : mk / 2 ^ e.cfg.W < 2 ^ e.cfg.W := by
    rwa [Nat.div_lt_iff_lt_mul (Nat.two_pow_pos _), ← Nat.pow_add, ← Nat.two_mul]
  rw [reflectorSubkeys_k0, Nat.mod_eq_of_lt hhigh]

theorem reflectorSubkeys_k1a_lt (e : Engine) (mk : Nat) : (reflectorSubkeys e.cfg mk).k1a < 2 ^ e.cfg.W := by
  rw [reflectorSubkeys_k1a, reflectorSubkeys_k1]
  exact Nat.xor_lt_two_pow (Nat.mod_lt _ (Nat.two_pow_pos _)) e.alpha_lt

theorem foldedHalf_lt {c : Cfg} {k0 : Nat} (hk0 : k0 < 2 ^ c.W) : foldedHalf c k0 < 2 ^ c.W :=
  Nat.xor_lt_two_pow (rotateLeft_lt ..) ((Nat.shiftRight_le ..).trans_lt hk0)

/-- Rotating left by `w - 1` is rotating right by 1. -/
theorem testBit_rotateLeft_pred {w i : Nat} (v : Nat) (hi : i < w) :
    (rotateLeft v w (w - 1)).testBit i = v.testBit ((i + 1) % w) := by
  have hrotation : rotation w (w - 1) = w - 1 := by
    rw [rotation, Int.emod_eq_of_lt (by omega) (by omega)]
    omega
  have htarget : ((i + 1) % w + (w - 1)) % w = i := by
    rw [Nat.mod_add_mod, show i + 1 + (w - 1) = i + w by omega, Nat.add_mod_right, Nat.mod_eq_of_lt hi]
  have h := testBit_rotateLeft (v := v) (w - 1) (Nat.mod_lt (i + 1) (Nat.zero_lt_of_lt hi))
  rwa [hrotation, htarget] at h

/-- R171's `k0p` bit by bit: `k0` rotated right by 1, its old top bit XORed in at the bottom. -/
theorem testBit_foldedHalf {c : Cfg} {i : Nat} (k0 : Nat) (hi : i < c.W) :
    (foldedHalf c k0).testBit i = (k0.testBit ((i + 1) % c.W) ^^ k0.testBit (c.W - 1 + i)) := by
  rw [foldedHalf, Nat.testBit_xor, testBit_rotateLeft_pred k0 hi, Nat.testBit_shiftRight]

/-- Above the bottom bit nothing is XORed in. -/
theorem testBit_foldedHalf_of_pos {c : Cfg} {k0 i : Nat} (hk0 : k0 < 2 ^ c.W) (hpos : 1 ≤ i) (hi : i < c.W) :
    (foldedHalf c k0).testBit i = k0.testBit ((i + 1) % c.W) := by
  have habove : k0.testBit (c.W - 1 + i) = false :=
    Nat.testBit_lt_two_pow (hk0.trans_le (Nat.pow_le_pow_right (by decide) (by omega)))
  rw [testBit_foldedHalf k0 hi, habove, Bool.xor_false]

/-- A half of one bit is folded onto itself. -/
theorem foldedHalf_of_W_eq_one {c : Cfg} {k0 : Nat} (hk0 : k0 < 2 ^ c.W) (hW : c.W = 1) : foldedHalf c k0 = 0 := by
  have hlt := foldedHalf_lt hk0
  have hbit := testBit_foldedHalf k0 (c := c) (i := 0) (by omega)
  rw [hW] at hlt hbit
  rw [Nat.testBit_zero, Bool.xor_self, decide_eq_false_iff_not] at hbit
  omega

/-- Settles O46: the halves by `slice`, `k0p` by `testBit_foldedHalf`. -/
theorem reflectorSubkeyBits : Obligations.ReflectorSubkeyBits := by
  intro e mk hmk t
  have hk0 : t.k0 < 2 ^ e.cfg.W := reflectorSubkeys_k0_lt e mk
  refine ⟨reflectorSubkeys_k0_of_lt e hmk, reflectorSubkeys_k1 e mk, rfl, foldedHalf_lt hk0,
    reflectorSubkeys_k1a_lt e mk, foldedHalf_of_W_eq_one hk0, fun hW => ⟨?_, fun i hpos hi => ?_, ?_⟩⟩
  · have h := testBit_foldedHalf_of_pos hk0 (i := e.cfg.W - 1) (by omega) (by omega)
    rwa [Nat.sub_add_cancel (by omega), Nat.mod_self] at h
  · have h := testBit_foldedHalf_of_pos hk0 hpos (by omega)
    rwa [Nat.mod_eq_of_lt (by omega)] at h
  · have h := testBit_foldedHalf t.k0 (c := e.cfg) (i := 0) (by omega)
    rwa [Nat.zero_add, Nat.mod_eq_of_lt hW] at h

-- relabelling (R174)

@[simp] theorem relabel_relabel {α : Type} (t : KeyTuple α) : relabel (relabel t) = t := rfl

/-- A schedule's first sub-key determines its third. -/
theorem reflectorKeySchedule_k0p_of_k0 (e : Engine) {mk v : Nat} (hv : v < 2 ^ e.cfg.W)
    (h : (reflectorKeySchedule e.cfg mk).k0 = intToCells v e.cfg.ncells e.cfg.nbits) :
    (reflectorKeySchedule e.cfg mk).k0p = intToCells (foldedHalf e.cfg v) e.cfg.ncells e.cfg.nbits := by
  have hk0 : (reflectorSubkeys e.cfg mk).k0 = v := by
    have hint := congrArg (cellsToInt · e.cfg.nbits) h
    simp only [reflectorKeySchedule, cellsToInt_intToCells] at hint
    exact (Nat.mod_eq_of_lt (reflectorSubkeys_k0_lt e mk)).symm.trans (hint.trans (Nat.mod_eq_of_lt hv))
  rw [reflectorKeySchedule, reflectorSubkeys_k0p, hk0]

/-- On `TA` a schedule that starts with `k0p = 0xC781` of `0x8F0112AB` goes on with `0xE3C1`, not with `k0 = 0x8F01`. -/
theorem reflectorKeySchedule_ne_relabel (mk : Nat) :
    reflectorKeySchedule cfgTA mk ≠ relabel (reflectorKeySchedule cfgTA 0x8F0112AB) := by
  intro h
  have hk0 : (reflectorKeySchedule cfgTA mk).k0 = intToCells 0xC781 4 4 :=
    (congrArg KeyTuple.k0 h).trans (by decide)
  have hk0p : (reflectorKeySchedule cfgTA mk).k0p = intToCells 0x8F01 4 4 :=
    (congrArg KeyTuple.k0p h).trans (by decide)
  have hfolded := reflectorKeySchedule_k0p_of_k0 engineTA (by decide) hk0
  exact absurd (hk0p.symm.trans hfolded) (by decide)

/-- Settles O49: decryption is defined by relabelling, and `k0` of a key schedule determines `k0p`. -/
theorem relabelIsAnInvolution : Obligations.RelabelIsAnInvolution :=
  ⟨fun _ _ _ _ => rfl, fun _ _ _ _ _ _ => rfl, relabel_relabel, fun mk _ => reflectorKeySchedule_ne_relabel mk⟩

-- the middle layer (R176)

theorem involutiveSbox_getD {c : Cfg} (h : involutiveSbox c = true) {v : Cell} (hv : v < 2 ^ c.nbits) :
    c.sbox.getD (c.sbox.getD v 0) 0 = v := by
  simp only [involutiveSbox, List.all_eq_true, List.mem_range, beq_iff_eq] at h
  exact h v hv

section
variable (e : Engine) {x : Block} (hP1 : involutiveSbox e.cfg = true) (hP2 : selfInverseMatrix e.cfg = true)
  (hx : blockFits e.cfg x = true)

include hP1 hx in
theorem substitute_sbox_sbox : substitute (substitute x e.cfg.sbox) e.cfg.sbox = x :=
  substitute_substitute fun _ hv => involutiveSbox_getD hP1 (blockFits_lt hx hv)

include hP2 hx in
theorem matrixMultiply_m_m : matrixMultiply e.cfg (matrixMultiply e.cfg x e.cfg.m) e.cfg.m = x :=
  matrixMultiply_matrixMultiply e hx e.mFits e.mFits (cellMatrix_mul_eq_one e.mFits e.mFits hP2)

include hP1 hP2 hx in
theorem middleLayer_middleLayer : middleLayer e.cfg (middleLayer e.cfg x) = x := by
  have hsub := substituteSbox_fits e hx
  have hmixed := matrixMultiply_fits e (substitute x e.cfg.sbox) e.mFits
  rw [middleLayer, middleLayer, substitute_sbox_sbox e hP1 hmixed, matrixMultiply_m_m e hP2 hsub,
    substitute_sbox_sbox e hP1 hx]

end

/-- Settles O50: from the outside in, `SBOX` undoes itself, `M` itself, and `SBOX` itself. -/
theorem middleLayerIsAnInvolution : Obligations.MiddleLayerIsAnInvolution :=
  fun e _ hP1 hP2 hx => middleLayer_middleLayer e hP1 hP2 hx

-- half-rounds (R177)

theorem forwardHalf_eq_foldl (c : Cfg) (k : Block) :
    ∀ (t : Nat) (x : Block), forwardHalf c k t x = (List.replicate t k).foldl (forwardRound c) x
  | 0, _ => rfl
  | t + 1, x => forwardHalf_eq_foldl c k t (forwardRound c x k)

theorem inverseHalf_eq_foldl (c : Cfg) (k : Block) :
    ∀ (t : Nat) (x : Block), inverseHalf c k t x = (List.replicate t k).foldl (inverseRound c) x
  | 0, _ => rfl
  | t + 1, x => inverseHalf_eq_foldl c k t (inverseRound c x k)

section
variable (e : Engine) {x k : Block} (t : Nat) (hx : blockFits e.cfg x = true) (hk : blockFits e.cfg k = true)
include hx hk

/-- The same key `t` times is the same backward, so that a half-round is undone as any fold of rounds is. -/
theorem inverseHalf_forwardHalf : inverseHalf e.cfg k t (forwardHalf e.cfg k t x) = x := by
  have h := foldl_reverse_foldl (ks := List.replicate t k) (fun _ _ => forwardRound_fits e)
    (fun _ _ => inverseRound_forwardRound e) (fun _ hmem => List.eq_of_mem_replicate hmem ▸ hk) hx
  rwa [List.reverse_replicate, ← inverseHalf_eq_foldl, ← forwardHalf_eq_foldl] at h

theorem forwardHalf_inverseHalf : forwardHalf e.cfg k t (inverseHalf e.cfg k t x) = x := by
  have h := foldl_reverse_foldl (ks := List.replicate t k) (fun _ _ => inverseRound_fits e)
    (fun _ _ => forwardRound_inverseRound e) (fun _ hmem => List.eq_of_mem_replicate hmem ▸ hk) hx
  rwa [List.reverse_replicate, ← forwardHalf_eq_foldl, ← inverseHalf_eq_foldl] at h

end

/-- Settles O51, for every number of rounds. -/
theorem halfRoundsCancel : Obligations.HalfRoundsCancel := fun e _ _ hx hk => inverseHalf_forwardHalf e _ hx hk

-- encryption and decryption (R178)

section
variable (e : Engine) {x : Block} {t : KeyTuple Block} (hP1 : involutiveSbox e.cfg = true)
  (hP2 : selfInverseMatrix e.cfg = true) (hx : blockFits e.cfg x = true) (ht : tupleFits e.cfg t = true)
include hP1 hP2 hx ht

/-- Under the relabelled tuple the steps come back in the opposite order, each one undoing its counterpart. -/
theorem reflectorDecryptT_reflectorEncryptT :
    reflectorDecryptT e.cfg (reflectorEncryptT e.cfg x t) t = x := by
  obtain ⟨h0, h1, h0p, h1a⟩ := tupleFits_iff.mp ht
  have hx0 := add_fits hx h0
  have hwhite := add_fits hx0 h1
  have hhalf := forwardHalf_fits e h1 e.cfg.rhalf hwhite
  have hmid := middleLayer_fits e (x := forwardHalf e.cfg t.k1 e.cfg.rhalf (add (add x t.k0) t.k1))
  have hback := inverseHalf_fits e h1a e.cfg.rhalf hmid
  simp only [reflectorDecryptT, reflectorEncryptT, relabel]
  rw [add_add_key e (add_fits hback h1a) h0p, add_add_key e hback h1a, forwardHalf_inverseHalf e _ hmid h1a,
    middleLayer_middleLayer e hP1 hP2 hhalf, inverseHalf_forwardHalf e _ hwhite h1, add_add_key e hx0 h1,
    add_add_key e hx h0]

/-- `relabel` being an involution, encryption is decryption under the relabelled tuple. -/
theorem reflectorEncryptT_reflectorDecryptT :
    reflectorEncryptT e.cfg (reflectorDecryptT e.cfg x t) t = x :=
  reflectorDecryptT_reflectorEncryptT e hP1 hP2 hx (relabel_fits ht)

end

/-- Settles O52: the contract by `reflectorDecryptT_reflectorEncryptT`, its failure without P1 by running R178's
example. -/
theorem reflectorDecryptInvertsEncrypt : Obligations.ReflectorDecryptInvertsEncrypt :=
  ⟨fun e _ _ hP1 hP2 hx ht =>
      ⟨reflectorDecryptT_reflectorEncryptT e hP1 hP2 hx ht, reflectorEncryptT_reflectorDecryptT e hP1 hP2 hx ht⟩,
    by decide +kernel, by decide, by decide +kernel⟩

end Sys2Proof.Machine
end

