-- ==== Sys2Proof/Proofs/ReflectorCommands.lean ====
section
/-! The reflector cipher commands on the machine (spec/43_reflector.md R179 to R186): the two that write the key tuple,
the three that transform `S`, decryption as encryption between two exchanges of the tuple, and the round trips. -/

namespace Sys2Proof.Machine

-- the key tuple (R180, R181)

theorem exec_rksch_of_wide {s : State} (h : s.din >>> s.cfg.TKW ≠ 0) : exec .rksch s = .next (s.raise .size) := by
  rw [exec, execRksch, dinKey_of_wide h]
  rfl

/-- Writing the tuple that `TK` holds changes nothing. -/
theorem State.writeTuple_of_holdsTuple {s : State} {t : KeyTuple Block} (ht : HoldsTuple s t) : s.writeTuple t = s := by
  obtain ⟨⟩ := s
  cases ht
  rfl

section
variable {s : State} {t : KeyTuple Block} (ht : HoldsTuple s t)
include ht

theorem execAll_rkswp_cons (is : List Instr) :
    execAll (.rkswp :: is) s = execAll is ((s.writeTuple (relabel t)).answer 0) :=
  execAll_cons_of_next (exec_rkswp ht)

/-- `RKSWP` on the relabelled tuple puts the tuple back. -/
theorem exec_rkswp_of_relabelled : exec .rkswp (s.writeTuple (relabel t)) = .next (s.answer 0) :=
  calc exec .rkswp (s.writeTuple (relabel t))
      = .next ((s.writeTuple (relabel (relabel t))).answer 0) := exec_rkswp (t := relabel t) rfl
    _ = .next (s.answer 0) := by rw [relabel_relabel, State.writeTuple_of_holdsTuple ht]

theorem execAll_rkswp_rkswp : execAll [.rkswp, .rkswp] s = .next (s.answer 0) :=
  (execAll_rkswp_cons ht _).trans (execAll_cons_of_next (exec_rkswp_of_relabelled (s := s.answer 0) ht))

end

/-- Settles O45: `RKSCH` by the size of its key, `RKSWP` by `relabel`, which undoes itself. -/
theorem reflectorKeyCommands : Obligations.ReflectorKeyCommands := by
  refine ⟨fun s h => ?_, fun s h => exec_rksch_of_wide h, fun s t ht => ⟨exec_rkswp ht, execAll_rkswp_rkswp ht⟩⟩
  rw [Nat.shiftRight_eq_div_pow] at h
  exact exec_rksch ((Nat.div_eq_zero_iff_lt (Nat.two_pow_pos _)).mp h)

-- the block in `S` (R184 to R186)

/-- Settles O47, command by command. -/
theorem reflectorCommands : Obligations.ReflectorCommands :=
  ⟨fun s x hx => exec_of_maps hx (maps_mid s x),
    fun _ x _ hx ht => ⟨exec_of_maps hx (maps_renc ht x), exec_of_maps hx (maps_rdec ht x)⟩⟩

-- decryption by relabelling (R179)

section
variable {s : State} {x : Block} {t : KeyTuple Block} (hx : s.S = some x) (ht : HoldsTuple s t)
include hx ht

theorem exec_rdec : exec .rdec s = .next (s.holding (reflectorDecryptT s.cfg x t)) :=
  exec_of_maps hx (maps_rdec ht x)

/-- `RENC` after `RKSWP` finds the relabelled tuple, and so decrypts. -/
theorem execAll_rkswp_renc_cons (is : List Instr) :
    execAll (.rkswp :: .renc :: is) s =
      execAll is ((s.holding (reflectorDecryptT s.cfg x t)).writeTuple (relabel t)) := by
  have hrenc := exec_of_maps (s := (s.writeTuple (relabel t)).answer 0) hx (maps_renc (t := relabel t) rfl x)
  exact (execAll_rkswp_cons ht _).trans (execAll_cons_of_next hrenc)

/-- A second `RKSWP` puts the tuple back. -/
theorem execAll_rkswp_renc_rkswp :
    execAll [.rkswp, .renc, .rkswp] s = .next (s.holding (reflectorDecryptT s.cfg x t)) :=
  (execAll_rkswp_renc_cons hx ht _).trans
    (execAll_cons_of_next (exec_rkswp_of_relabelled (s := s.holding (reflectorDecryptT s.cfg x t)) ht))

end

/-- Settles O48: both sides leave the decrypted block, the longer sequence with the tuple put back. -/
theorem rdecIsRelabelledRenc : Obligations.RdecIsRelabelledRenc := fun _ _ _ hx ht =>
  ⟨⟨_, _, exec_rdec hx ht, execAll_rkswp_renc_rkswp hx ht, rfl⟩,
    _, _, exec_rdec hx ht, execAll_rkswp_renc_cons hx ht [], rfl⟩

-- round trips (R176, R178)

/-- Where all four valid bits are set, `TK` holds a tuple. -/
theorem exists_holdsTuple {s : State} (h : ∀ j < 4, s.TKV j = true) : ∃ t, HoldsTuple s t := by
  obtain ⟨a, ha⟩ : ∃ a, s.TK.k0 = some a := Option.isSome_iff_exists.mp (h 0 (by decide))
  obtain ⟨b, hb⟩ : ∃ b, s.TK.k1 = some b := Option.isSome_iff_exists.mp (h 1 (by decide))
  obtain ⟨c, hc⟩ : ∃ c, s.TK.k0p = some c := Option.isSome_iff_exists.mp (h 2 (by decide))
  obtain ⟨d, hd⟩ : ∃ d, s.TK.k1a = some d := Option.isSome_iff_exists.mp (h 3 (by decide))
  exact ⟨⟨a, b, c, d⟩, by rw [HoldsTuple, ← ha, ← hb, ← hc, ← hd]⟩

/-- Settles O53: the block and the tuple of a well-formed state fit the engine, so that the function layer's contract
holds of them. -/
theorem reflectorCommandsRoundTrip : Obligations.ReflectorCommandsRoundTrip := by
  intro s x hwf hx hP1 hP2
  obtain ⟨hs, -, -⟩ := State.wf_iff.mp hwf
  have hxfits := hs.blockFits_of_S hx
  refine ⟨execAll_of_leftInverse hx (maps_mid s) (maps_mid s) (middleLayer_middleLayer s.engine hP1 hP2 hxfits),
    fun hTKV => ?_⟩
  obtain ⟨t, ht⟩ := exists_holdsTuple hTKV
  have htfits := hs.readTuple (State.readTuple_eq_ok.mpr ht)
  exact ⟨execAll_of_leftInverse hx (maps_renc ht) (maps_rdec ht)
      (reflectorDecryptT_reflectorEncryptT s.engine hP1 hP2 hxfits htfits),
    execAll_of_leftInverse hx (maps_rdec ht) (maps_renc ht)
      (reflectorEncryptT_reflectorDecryptT s.engine hP1 hP2 hxfits htfits)⟩

end Sys2Proof.Machine
end

