-- ==== Sys2Proof/Proofs/HostEnumerator.lean ====
section
/-! The host-side enumerator (spec/44_enumerator_and_search.md R200, R201). Over ascending positions `spread` gives each
position the counter bit numbered by how many positions lie above it, and this numbering reaches every bit of the
counter: so a word shows its counter, and no two words are equal. -/

namespace Sys2Proof.Machine

-- the counter bit of a position

/-- Which bit of the counter goes to position `p`: the positions above `p` take the lower ones (R201). -/
def counterBit (ps : List Nat) (p : Nat) : Nat := (ps.filter fun q => decide (p < q)).length

theorem counterBit_eq_of_perm {ps qs : List Nat} (h : ps.Perm qs) (p : Nat) : counterBit ps p = counterBit qs p :=
  (h.filter _).length_eq

section
variable {p : Nat} {ps : List Nat}

theorem counterBit_cons_self (h : ∀ q ∈ ps, p < q) : counterBit (p :: ps) p = ps.length := by
  have hall : (ps.filter fun q => decide (p < q)) = ps := List.filter_eq_self.mpr (by simpa using h)
  simp [counterBit, hall]

theorem counterBit_cons_of_lt {q : Nat} (h : p < q) : counterBit (p :: ps) q = counterBit ps q := by
  simp [counterBit, Nat.lt_asymm h]

end

/-- Every bit of the counter goes to some position. -/
theorem exists_counterBit_eq {i : Nat} :
    ∀ {ps : List Nat}, ps.Pairwise (· < ·) → i < ps.length → ∃ p ∈ ps, counterBit ps p = i
  | p :: ps, hps, hi => by
    obtain ⟨hfirst, hrest⟩ := List.pairwise_cons.mp hps
    rcases Nat.lt_succ_iff_lt_or_eq.mp hi with hlt | rfl
    · obtain ⟨q, hq, hbit⟩ := exists_counterBit_eq hrest hlt
      exact ⟨q, List.mem_cons_of_mem p hq, (counterBit_cons_of_lt (hfirst q hq)).trans hbit⟩
    · exact ⟨p, List.mem_cons_self, counterBit_cons_self hfirst⟩

-- the spread counter, bit by bit

theorem spread_lt {width t : Nat} {ps : List Nat} (hwidth : ∀ p ∈ ps, p < width) : spread width t ps < 2 ^ width :=
  Nat.lt_pow_two_of_testBit _ fun b hb => testBit_spread_of_forall_ne fun p hp => by
    have := hwidth p hp
    omega

/-- The first position takes the counter's bit `ps.length`, and no later position disturbs it. -/
theorem testBit_spread_cons_self {width t p : Nat} {ps : List Nat} (hwidth : ∀ q ∈ ps, q < width)
    (h : ∀ q ∈ ps, p < q) : (spread width t (p :: ps)).testBit (width - 1 - p) = t.testBit ps.length := by
  have hlater : (spread width t ps).testBit (width - 1 - p) = false := testBit_spread_of_forall_ne fun q hq => by
    have := hwidth q hq
    have := h q hq
    omega
  rw [spread, Nat.testBit_or, hlater, Bool.or_false]
  cases t.testBit ps.length <;> simp

theorem testBit_spread_cons_of_lt {width t p q : Nat} {ps : List Nat} (hq : q < width) (h : p < q) :
    (spread width t (p :: ps)).testBit (width - 1 - q) = (spread width t ps).testBit (width - 1 - q) := by
  have hne : width - 1 - p ≠ width - 1 - q := by omega
  rw [spread, Nat.testBit_or]
  split <;> simp [Nat.testBit_two_pow_of_ne hne]

theorem testBit_spread_of_mem {width t p : Nat} :
    ∀ {ps : List Nat}, ps.Pairwise (· < ·) → (∀ q ∈ ps, q < width) → p ∈ ps →
      (spread width t ps).testBit (width - 1 - p) = t.testBit (counterBit ps p)
  | q :: ps, hps, hwidth, hp => by
    obtain ⟨hfirst, hrest⟩ := List.pairwise_cons.mp hps
    obtain ⟨-, hwidthRest⟩ := List.forall_mem_cons.mp hwidth
    rcases List.mem_cons.mp hp with rfl | hp
    · rw [testBit_spread_cons_self hwidthRest hfirst, counterBit_cons_self hfirst]
    · rw [testBit_spread_cons_of_lt (hwidthRest p hp) (hfirst p hp), counterBit_cons_of_lt (hfirst p hp),
        testBit_spread_of_mem hrest hwidthRest hp]

/-- Counters that fit the positions are told apart by what they spread to. -/
theorem eq_of_spread_eq {width t u : Nat} {ps : List Nat} (hps : ps.Pairwise (· < ·)) (hwidth : ∀ p ∈ ps, p < width)
    (ht : t < 2 ^ ps.length) (hu : u < 2 ^ ps.length) (h : spread width t ps = spread width u ps) : t = u := by
  refine Nat.eq_of_testBit_eq fun i => ?_
  rcases Nat.lt_or_ge i ps.length with hi | hi
  · obtain ⟨p, hp, rfl⟩ := exists_counterBit_eq hps hi
    rw [← testBit_spread_of_mem hps hwidth hp, h, testBit_spread_of_mem hps hwidth hp]
  · have hpow : 2 ^ ps.length ≤ 2 ^ i := Nat.pow_le_pow_right (by decide) hi
    rw [Nat.testBit_lt_two_pow (ht.trans_le hpow), Nat.testBit_lt_two_pow (hu.trans_le hpow)]

-- the enumerator's items

theorem Enumerator.ascending_strict (en : Enumerator) : en.ascending.Pairwise (· < ·) :=
  en.ascending_pairwise.imp₂ (fun _ _ => Nat.lt_of_le_of_ne) en.nodup_ascending

/-- An item differs from the fixed value where the spread counter has a 1. -/
theorem Enumerator.testBit_item (en : Enumerator) {t b : Nat} (hb : b < en.width) :
    (en.item t).testBit b = (en.fixedOne ^^ (spread en.width t en.ascending).testBit b) := by
  rw [Enumerator.item, Nat.testBit_xor]
  cases en.fixedOne <;> simp [Nat.testBit_two_pow_sub_one, hb]

section
variable {en : Enumerator} (hwidth : ∀ p ∈ en.positions, p < en.width)
include hwidth

theorem Enumerator.lt_width_of_mem_ascending : ∀ p ∈ en.ascending, p < en.width :=
  fun p hp => hwidth p (Enumerator.mem_ascending.mp hp)

theorem Enumerator.item_lt (t : Nat) : en.item t < 2 ^ en.width := by
  refine Nat.xor_lt_two_pow ?_ (spread_lt (Enumerator.lt_width_of_mem_ascending hwidth))
  split <;> simp

theorem Enumerator.nodup_items : en.items.Nodup := by
  refine List.Nodup.map_on (fun t ht u hu h => ?_) List.nodup_range
  exact eq_of_spread_eq en.ascending_strict (Enumerator.lt_width_of_mem_ascending hwidth) (List.mem_range.mp ht)
    (List.mem_range.mp hu) (Nat.xor_right_injective h)

/-- A position that is not listed keeps the fixed value. -/
theorem Enumerator.testBit_item_of_not_mem {t p : Nat} (hp : p < en.width) (hnot : p ∉ en.positions) :
    (en.item t).testBit (en.width - 1 - p) = en.fixedOne := by
  have hzero : (spread en.width t en.ascending).testBit (en.width - 1 - p) = false :=
    testBit_spread_of_forall_ne fun q hq hsame => by
      have hq := Enumerator.mem_ascending.mp hq
      have := hwidth q hq
      exact hnot ((show p = q by omega) ▸ hq)
  rw [en.testBit_item (by omega), hzero, Bool.xor_false]

theorem Enumerator.testBit_item_of_mem {t p : Nat} (hp : p ∈ en.positions) :
    (en.item t).testBit (en.width - 1 - p) = (en.fixedOne ^^ t.testBit (counterBit en.positions.dedup p)) := by
  have := hwidth p hp
  rw [en.testBit_item (by omega), testBit_spread_of_mem en.ascending_strict
    (Enumerator.lt_width_of_mem_ascending hwidth) (Enumerator.mem_ascending.mpr hp),
    counterBit_eq_of_perm en.ascending_perm]

end

@[simp] theorem Enumerator.length_items (en : Enumerator) : en.items.length = 2 ^ en.positions.dedup.length := by
  simp [Enumerator.items]

theorem Enumerator.getElem?_items (en : Enumerator) {t : Nat} (ht : t < 2 ^ en.positions.dedup.length) :
    en.items[t]? = some (en.item t) := by
  simp [Enumerator.items, ht]

/-- Settles O57: item `t` is the fixed value but for the counter bits, from which `t` can be read back. -/
theorem enumeratorCoversItsPositions : Obligations.EnumeratorCoversItsPositions := by
  intro en hwidth
  refine ⟨en.length_items, Enumerator.nodup_items hwidth, ?_, fun t ht => ⟨en.item t, en.getElem?_items ht, ?_, ?_⟩⟩
  · exact List.forall_mem_map.mpr fun t _ => Enumerator.item_lt hwidth t
  · exact fun p => Enumerator.testBit_item_of_not_mem hwidth
  · exact fun p => Enumerator.testBit_item_of_mem hwidth

end Sys2Proof.Machine
end

