-- ==== Sys2Proof/Proofs/DataMovement.lean ====
section
/-! The data movement commands on the whole state (spec/45_data_movement.md R220 to R226): what a load writes and what it
leaves unchanged, its index error, and what a read answers. -/

namespace Sys2Proof.Machine

/-- A sub-key write changes `TK` alone. -/
theorem State.writeTk_eq_with_TK (s : State) (j : Nat) (k : Block) :
    s.writeTk j k = { s with TK := (s.writeTk j k).TK } := by
  unfold State.writeTk
  split <;> rfl

-- an index outside the file (R253)

theorem exec_ldrk_of_ge {s : State} {r : Idx} (h : s.cfg.nrounds ≤ r.toNat) :
    exec (.ldrk r) s = .next (s.raise .range) := by
  rw [exec, execLdrk, rkIndex_of_ge h]
  rfl

theorem exec_ldtk_of_ge {s : State} {j : Idx} (h : 4 ≤ j.toNat) : exec (.ldtk j) s = .next (s.raise .range) := by
  rw [exec, execLdtk, tkIndex_of_ge h]
  rfl

/-- Settles O22: a load makes its one named write of `dinBlock s`, which is the cells of the low `W` bits of `din`. -/
theorem loadsWriteTheDataIn : Obligations.LoadsWriteTheDataIn := by
  refine ⟨fun s => ?_, fun s r hlen hr => ?_, fun s j hj => ?_, fun _ _ => exec_ldrk_of_ge, fun _ _ => exec_ldtk_of_ge⟩
  all_goals rw [← dinBlock_eq]
  · exact exec_lds_dinBlock s
  · have hfile : r.toNat < s.RK.length := hlen.symm ▸ hr
    exact ⟨_, exec_ldrk_dinBlock hr, rfl, List.length_set, fun _ => State.rkVal_writeRk hfile⟩
  · have hframe := s.writeTk_eq_with_TK j.toNat (dinBlock s)
    exact ⟨_, exec_ldtk_dinBlock hj, congrArg (State.answer · 0) hframe, fun _ => State.tkVal_writeTk hj⟩

/-- Settles O23, register by register: a read answers on the state as it was. -/
theorem readsAnswerTheRegister : Obligations.ReadsAnswerTheRegister :=
  ⟨fun _ _ => exec_rds, fun _ _ _ => exec_rdrk, fun _ _ _ => exec_rdtk⟩

end Sys2Proof.Machine
end

