-- ==== Sys2Proof/Proofs/Control.lean ====
section
/-! The control commands on the whole state (spec/46_control.md R240 to R242): what each leaves of the registers and of
`ERR`, and that its word with a non-zero operand byte is an illegal command instead. -/

namespace Sys2Proof.Machine

open Sys2Proof.Laws

-- one write, one answer

theorem exec_nop (s : State) : exec .nop s = .next (s.answer 0) := rfl

theorem exec_clrerr (s : State) : exec .clrerr s = .next (s.clearErr.answer 0) := rfl

theorem exec_clr (s : State) : exec .clr s = .next (s.discard.answer 0) := rfl

/-- What `CLR` leaves is the reset state of the same engine, but for `ERR` and the ports. -/
theorem State.discard_eq_resetOf (s : State) :
    s.discard = { State.resetOf s.engine with ERR := s.ERR, script := s.script, din := s.din, resp := s.resp } := rfl

-- the reserved words of a format-N command (R64)

/-- A word above a command's own, up to the last of its opcode, has that opcode and a non-zero operand byte. -/
theorem reserved_fields {w : CmdWord} {o : BitVec 8} (hlo : o.toNat * 256 < w.toNat)
    (hhi : w.toNat ≤ o.toNat * 256 + 0xFF) : opcodeField w = o ∧ idxField w ≠ 0 := by
  constructor
  · apply BitVec.eq_of_toNat_eq
    rw [opcodeField_toNat]
    omega
  · intro hidx
    have hzero : w.toNat % 256 = 0 := (idxField_toNat w).symm.trans (congrArg BitVec.toNat hidx)
    omega

theorem step_reserved {i : Instr} (hi : takesIdx i = false) {s : State} {q : Request} {rest : List HostEvent}
    (hs : s.script = .command q :: rest) (hq : q.onBus s.cfg = true) (hlo : (opcodeOf i).toNat * 256 < q.cmd.toNat)
    (hhi : q.cmd.toNat ≤ (opcodeOf i).toNat * 256 + 0xFF) :
    step s = .next ((s.accept q rest).raise .illcmd) := by
  obtain ⟨ho, hidx⟩ := reserved_fields hlo hhi
  obtain ⟨e, he⟩ := decode_eq_error_iff.mpr (.inr ⟨i, hi, ho.symm, hidx⟩)
  exact step_illegal hs hq he

/-- Settles O19: `NOP` answers on the state as it was, and its other words are reserved. -/
theorem nopChangesNothing : Obligations.NopChangesNothing :=
  ⟨decodeOfEncode .nop, exec_nop, fun _ _ _ => step_reserved (i := .nop) rfl⟩

/-- Settles O20: `CLRERR` makes the one write `clearErr`, and its other words are reserved. -/
theorem clrerrClearsErrAlone : Obligations.ClrerrClearsErrAlone :=
  ⟨decodeOfEncode .clrerr, exec_clrerr, fun _ _ _ => step_reserved (i := .clrerr) rfl⟩

/-- Settles O21: `CLR` makes the one write `discard`, which is a reset but for `ERR` and the ports, and its other words
are reserved. -/
theorem clrDiscardsEveryRegister : Obligations.ClrDiscardsEveryRegister := by
  refine ⟨decodeOfEncode .clr, fun s => ?_, fun _ _ _ => step_reserved (i := .clr) rfl⟩
  rw [exec_clr, State.discard_eq_resetOf]
  rfl

end Sys2Proof.Machine
end

