-- ==== Sys2Proof/Proofs/Exceptions.lean ====
section
/-! Errors (spec/60_exceptions.md R256 to R263): `step_command_cases` says once what a presented command does to the
registers and to `ERR`, `run_ERR` what a run does to `ERR`, and `exec_reports` which code a command answers. -/

namespace Sys2Proof.Machine

-- no command reads `ERR` (R257)

/-- `KeepsErr old new x y`: the result `y` is `x` with `new` for `ERR`, and a success of `x` has `old` there. An error
that is raised is not `OK`. -/
inductive KeepsErr (old new : ErrCode) : Result → Result → Prop where
  | error (c : ErrCode) (hc : c ≠ .ok) : KeepsErr old new (.error c) (.error c)
  | ok (t : State) (d : Nat) (h : t.ERR = old) : KeepsErr old new (.ok (t, d)) (.ok ({ t with ERR := new }, d))

theorem Raises.ne_ok {α : Type} {x : Except ErrCode α} {e : ErrCode} (hx : Raises x) (h : x = .error e) : e ≠ .ok := by
  rcases hx e h with rfl | rfl <;> simp

theorem KeepsErr.bind {old new : ErrCode} {α : Type} {x : Except ErrCode α} {f g : α → Result} (hx : Raises x)
    (h : ∀ a, KeepsErr old new (f a) (g a)) : KeepsErr old new (x >>= f) (x >>= g) := by
  cases x with
  | error c => exact .error c (hx.ne_ok rfl)
  | ok a => exact h a

section
variable (s : State) (e : ErrCode)

theorem transform_keepsErr (f : Block → Block) :
    KeepsErr s.ERR e (s.transform f) (State.transform { s with ERR := e } f) :=
  .bind (readS_raises s) fun _ => .ok _ _ rfl

theorem transformRk_keepsErr (r : Idx) (f : Block → Block → Block) :
    KeepsErr s.ERR e (s.transformRk r f) (State.transformRk { s with ERR := e } r f) :=
  .bind (rkIndex_raises s r) fun _ => .bind (readS_raises s) fun _ => .bind (readRk_raises s _) fun _ => .ok _ _ rfl

theorem transformTk_keepsErr (j : Idx) (f : Block → Block → Block) :
    KeepsErr s.ERR e (s.transformTk j f) (State.transformTk { s with ERR := e } j f) :=
  .bind (tkIndex_raises j) fun _ => .bind (readS_raises s) fun _ => .bind (readTk_raises s _) fun _ => .ok _ _ rfl

theorem transformRks_keepsErr (n : Nat) (f : Block → List Block → Block) :
    KeepsErr s.ERR e (s.transformRks n f) (State.transformRks { s with ERR := e } n f) :=
  .bind (readS_raises s) fun _ => .bind (readRks_raises s n) fun _ => .ok _ _ rfl

theorem transformTuple_keepsErr (f : Block → KeyTuple Block → Block) :
    KeepsErr s.ERR e (s.transformTuple f) (State.transformTuple { s with ERR := e } f) :=
  .bind (readS_raises s) fun _ => .bind (readTuple_raises s) fun _ => .ok _ _ rfl

theorem writeTk_keepsErr (j : Nat) (k : Block) :
    KeepsErr s.ERR e (.ok (s.writeTk j k, 0)) (.ok (State.writeTk { s with ERR := e } j k, 0)) := by
  have hwrite : State.writeTk { s with ERR := e } j k = { s.writeTk j k with ERR := e } := by
    unfold State.writeTk
    split <;> rfl
  rw [hwrite]
  exact .ok _ _ (s.writeTk_ERR j k)

/-- Every command but `CLRERR` has the same result whatever `ERR` holds, and only carries `ERR` along. -/
theorem exec_keepsErr {i : Instr} (hi : i ≠ .clrerr) :
    ∃ x y, exec i s = s.commit x ∧ exec i { s with ERR := e } = State.commit { s with ERR := e } y ∧
      KeepsErr s.ERR e x y := by
  cases i with
  | clrerr => exact absurd rfl hi
  | nop => exact ⟨_, _, rfl, rfl, .ok s 0 rfl⟩
  | clr => exact ⟨_, _, rfl, rfl, .ok s.discard 0 rfl⟩
  | lds => exact ⟨_, _, rfl, rfl, .ok (s.writeS (dinBlock s)) 0 rfl⟩
  | rds => exact ⟨_, _, rfl, rfl, .bind (readS_raises s) fun _ => .ok _ _ rfl⟩
  | ldrk r => exact ⟨_, _, rfl, rfl, .bind (rkIndex_raises s r) fun _ => .ok _ _ rfl⟩
  | ksch | rksch => exact ⟨_, _, rfl, rfl, .bind (dinKey_raises s _) fun _ => .ok _ _ rfl⟩
  | rkswp => exact ⟨_, _, rfl, rfl, .bind (readTuple_raises s) fun _ => .ok _ _ rfl⟩
  | rdrk r => exact ⟨_, _, rfl, rfl, .bind (rkIndex_raises s r) fun _ => .bind (readRk_raises s _) fun _ => .ok _ _ rfl⟩
  | rdtk j => exact ⟨_, _, rfl, rfl, .bind (tkIndex_raises j) fun _ => .bind (readTk_raises s _) fun _ => .ok _ _ rfl⟩
  | ldtk j => exact ⟨_, _, rfl, rfl, .bind (tkIndex_raises j) fun _ => writeTk_keepsErr s e _ _⟩
  | sub | subi | prm | prmi | mmul | mmuli | addd | mid => exact ⟨_, _, rfl, rfl, transform_keepsErr s e _⟩
  | addrk r | rndf r | rndi r => exact ⟨_, _, rfl, rfl, transformRk_keepsErr s e r _⟩
  | addtk j | rndft j | rndit j => exact ⟨_, _, rfl, rfl, transformTk_keepsErr s e j _⟩
  | enc | dec => exact ⟨_, _, rfl, rfl, transformRks_keepsErr s e _ _⟩
  | encr n | decr n => exact ⟨_, _, rfl, rfl, .bind (roundCount_raises s n) fun _ => transformRks_keepsErr s e _ _⟩
  | renc | rdec => exact ⟨_, _, rfl, rfl, transformTuple_keepsErr s e _⟩

end

/-- `ERR` never alters a command: with another `ERR` before, nothing but `ERR` differs after. -/
theorem exec_withErr {i : Instr} {s t : State} (e : ErrCode) (h : exec i s = .next t) :
    ∃ u, exec i { s with ERR := e } = .next u ∧ { u with ERR := .ok } = { t with ERR := .ok } := by
  by_cases hi : i = .clrerr
  · subst hi
    cases h
    exact ⟨_, rfl, rfl⟩
  · obtain ⟨x, y, hx, hy, hkeeps⟩ := exec_keepsErr s e hi
    cases hkeeps with
    | error c _ =>
      cases hx.symm.trans h
      exact ⟨_, hy, rfl⟩
    | ok u d _ =>
      cases hx.symm.trans h
      exact ⟨_, hy, rfl⟩

-- a command that fails and a command that succeeds (R256, R257)

/-- Everything a command can do to `ERR`: raise an error on the state as it was, or succeed and keep `ERR`, which
`CLRERR` alone clears. -/
theorem exec_ERR_cases {i : Instr} {s t : State} (h : exec i s = .next t) :
    (∃ e, e ≠ .ok ∧ t = s.raise e) ∨
      ∃ d, t.resp = okResp d ∧ t.ERR = if i = .clrerr then .ok else s.ERR := by
  by_cases hi : i = .clrerr
  · subst hi
    cases h
    exact .inr ⟨0, rfl, rfl⟩
  · rw [if_neg hi]
    obtain ⟨x, y, hx, -, hkeeps⟩ := exec_keepsErr s s.ERR hi
    cases hkeeps with
    | error c hc =>
      cases hx.symm.trans h
      exact .inl ⟨c, hc, rfl⟩
    | ok u d hu =>
      cases hx.symm.trans h
      exact .inr ⟨d, rfl, hu⟩

/-- The same of a presented command; an illegal word is a command that fails. -/
theorem step_command_cases {s t : State} {q : Request} {rest : List HostEvent} (hs : s.script = .command q :: rest)
    (h : step s = .next t) :
    (∃ e, e ≠ .ok ∧ t = (s.accept q rest).raise e) ∨
      ∃ d, t.resp = okResp d ∧ t.ERR = if decode q.cmd = .ok .clrerr then .ok else s.ERR := by
  rcases step_cases h with
    ⟨hs', -⟩ | ⟨rest', hs', -⟩ | ⟨q', rest', e, hs', -, -, ht⟩ | ⟨q', rest', i, hs', -, hd, hexec⟩
  all_goals cases hs.symm.trans hs'
  · exact .inl ⟨.illcmd, by simp, ht⟩
  · rcases exec_ERR_cases hexec with hfail | ⟨d, hresp, hERR⟩
    · exact .inl hfail
    · exact .inr ⟨d, hresp, by simpa [hd] using hERR⟩

/-- Only `State.raise` answers a code other than `OK`. -/
theorem eq_raise_of_failed {s t : State} {r : Response} {p : Prop}
    (h : (∃ e, e ≠ .ok ∧ t = s.raise e) ∨ ∃ d, t.resp = okResp d ∧ p) (hr : t.resp = some r) (hfail : r.code ≠ .ok) :
    t = s.raise r.code := by
  rcases h with ⟨e, -, rfl⟩ | ⟨d, hd, -⟩
  · cases hr
    rfl
  · cases hd.symm.trans hr
    exact absurd rfl hfail

/-- Settles O13: `State.raise` is the record that the statement writes out. -/
theorem failingCommandHasNoEffect : Obligations.FailingCommandHasNoEffect :=
  ⟨fun _ _ _ _ _ hs h => eq_raise_of_failed (step_command_cases hs h),
    fun _ _ _ _ h => eq_raise_of_failed (exec_ERR_cases h)⟩

-- runs

/-- A run of one more step, taken apart at its first step. -/
theorem run_succ_eq_next {M : Host.Core} {k : Nat} {s u : M.State} :
    M.run (k + 1) s = .next u ↔ ∃ t, M.step s = .next t ∧ M.run k t = .next u := by
  rw [Host.Core.run]
  cases M.step s <;> simp

/-- A step takes the event that was presented off the script. -/
theorem step_script {s t : State} (h : step s = .next t) : t.script = s.script.tail := by
  rcases step_cases h with ⟨hs, rfl⟩ | ⟨rest, hs, rfl⟩ | ⟨q, rest, _, hs, -, -, rfl⟩ | ⟨q, rest, i, hs, -, -, hexec⟩
  · rw [hs, State.idle_script, hs, List.tail_nil]
  · rw [hs, State.takeReset_script, List.tail_cons]
  · rw [hs, State.raise_script, State.accept_script, List.tail_cons]
  · obtain ⟨-, hscript, -⟩ := commandsWriteOnlyWhatTheTableSays i _ t hexec
    rw [hs, hscript, State.accept_script, List.tail_cons]

-- the engine goes on (R261)

theorem exec_answers (i : Instr) (s : State) : ∃ t, exec i s = .next t := by
  obtain ⟨r, hexec, -⟩ := exec_commits i s
  rw [hexec]
  exact s.commit_answers r

/-- A step with nothing but a fitting event presented answers. -/
theorem step_answers {s : State} (hbus : ∀ ev ∈ s.script, ev.onBus s.cfg = true) : ∃ t, step s = .next t := by
  rcases hs : s.script with _ | ⟨q | _, rest⟩
  · exact ⟨_, step_idle hs⟩
  · have hq : q.onBus s.cfg = true := hbus (.command q) (by simp [hs])
    cases hd : decode q.cmd with
    | error e => exact ⟨_, step_illegal hs hq hd⟩
    | ok i =>
      rw [step_decoded hs hq hd]
      exact exec_answers i _
  · exact ⟨_, step_reset hs⟩

theorem safe_of_onBus (k : Nat) {s : State} (hbus : ∀ ev ∈ s.script, ev.onBus s.cfg = true) : Safe k s := by
  induction k generalizing s with
  | zero => exact ⟨s, rfl⟩
  | succ k ih =>
    obtain ⟨t, ht⟩ := step_answers hbus
    have hbus' : ∀ ev ∈ t.script, ev.onBus t.cfg = true := by
      intro ev hev
      rw [step_script ht] at hev
      rw [State.cfg, stepKeepsTheConfiguration s t ht]
      exact hbus ev (List.mem_of_mem_tail hev)
    obtain ⟨u, hu⟩ := ih hbus'
    exact ⟨u, run_succ_eq_next.mpr ⟨t, ht, hu⟩⟩

/-- Settles O9: induction on the steps, and the frame of a failing command with `ERR` kept. -/
theorem noCommandStopsTheEngine : Obligations.NoCommandStopsTheEngine := by
  refine ⟨fun k s => safe_of_onBus k, fun s q rest t r hs h hr hfail hERR => ?_⟩
  have ht := failingCommandHasNoEffect.1 s q rest t r hs h hr hfail
  rwa [if_neg hERR] at ht

-- the first error (R257)

theorem stickyErr_ok_new (e : ErrCode) : stickyErr e .ok = e := by
  unfold stickyErr
  split
  next h => exact h.symm
  next => rfl

theorem stickyErr_assoc (a b c : ErrCode) : stickyErr (stickyErr a b) c = stickyErr a (stickyErr b c) := by
  by_cases ha : a = .ok
  · rw [ha, stickyErr_ok_old, stickyErr_ok_old]
  · rw [stickyErr_of_ne ha, stickyErr_of_ne ha, stickyErr_of_ne ha]

theorem firstError_cons (e : ErrCode) (es : List ErrCode) : firstError (e :: es) = stickyErr e (firstError es) := rfl

theorem firstError_append (es fs : List ErrCode) :
    firstError (es ++ fs) = stickyErr (firstError es) (firstError fs) := by
  induction es with
  | nil => rfl
  | cons e es ih => rw [List.cons_append, firstError_cons, firstError_cons, ih, stickyErr_assoc]

theorem firstError_eq_ok_iff {es : List ErrCode} : firstError es = .ok ↔ ∀ e ∈ es, e = .ok := by
  induction es with
  | nil => simp [firstError]
  | cons e es ih =>
    rw [List.forall_mem_cons, ← ih, firstError_cons]
    by_cases he : e = .ok
    · simp [he]
    · simp [he, stickyErr_of_ne he]

/-- The result code of the latest step, if it had a response. -/
def State.codes (s : State) : List ErrCode := (s.resp.map (·.code)).toList

theorem State.codes_of_resp {s : State} {r : Response} (h : s.resp = some r) : s.codes = [r.code] := by
  rw [State.codes, h]
  rfl

theorem runCodes_succ {k : Nat} {s t : State} (h : step s = .next t) :
    runCodes (k + 1) s = t.codes ++ runCodes k t := by
  rw [runCodes, h]
  rfl

/-- `ERR` after a step that does not clear it: the code of the response, if it is the first error. -/
theorem step_ERR {s t : State} (h : step s = .next t) (hclear : ∀ ev ∈ s.script.head?, clearsErr ev = false) :
    t.ERR = stickyErr s.ERR (firstError t.codes) := by
  rcases hs : s.script with _ | ⟨q | _, rest⟩
  · cases (step_idle hs).symm.trans h
    exact (stickyErr_ok_new s.ERR).symm
  · have hq : decode q.cmd ≠ .ok .clrerr := by
      simpa [clearsErr] using hclear (.command q) (by simp [hs])
    rcases step_command_cases hs h with ⟨e, -, rfl⟩ | ⟨d, hresp, hERR⟩
    · rw [State.codes_of_resp (State.raise_resp _ e), firstError_cons, firstError, stickyErr_ok_new]
      rfl
    · rw [hERR, if_neg hq, State.codes_of_resp hresp]
      exact (stickyErr_ok_new s.ERR).symm
  · exact absurd (hclear .reset (by simp [hs])) (by decide)

/-- `ERR` after a run that does not clear it, from any `ERR`. -/
theorem run_ERR {k : Nat} {s t : State} (h : Sys2Proof.core.run k s = .next t)
    (hclear : ∀ ev ∈ s.script.take k, clearsErr ev = false) : t.ERR = stickyErr s.ERR (firstError (runCodes k s)) := by
  induction k generalizing s with
  | zero =>
    cases h
    exact (stickyErr_ok_new _).symm
  | succ k ih =>
    obtain ⟨u, hu, hrun⟩ := run_succ_eq_next.mp h
    have hhead : ∀ ev ∈ s.script.head?, clearsErr ev = false :=
      fun ev hev => hclear ev (List.mem_of_mem_head? (by rwa [List.head?_take, if_neg k.succ_ne_zero]))
    have htail : ∀ ev ∈ u.script.take k, clearsErr ev = false := by
      intro ev hev
      refine hclear ev (List.mem_of_mem_tail ?_)
      rwa [List.tail_take_eq_take_tail, Nat.add_sub_cancel, ← step_script hu]
    calc t.ERR = stickyErr u.ERR (firstError (runCodes k u)) := ih hrun htail
      _ = stickyErr (stickyErr s.ERR (firstError u.codes)) (firstError (runCodes k u)) := by rw [step_ERR hu hhead]
      _ = stickyErr s.ERR (firstError (runCodes (k + 1) s)) := by
        rw [stickyErr_assoc, ← firstError_append, runCodes_succ hu]

/-- Settles O14: one command by `step_command_cases`, a run by `run_ERR`, and what `ERR` alters by `exec_withErr`. -/
theorem errHoldsTheFirstError : Obligations.ErrHoldsTheFirstError := by
  refine ⟨fun s q rest t r hs h hr => ?_, fun k s t h hERR hclear => ?_, fun _ _ _ e => exec_withErr e⟩
  · rcases step_command_cases hs h with ⟨e, he, rfl⟩ | ⟨d, hd, hERR⟩
    · cases hr
      exact (if_pos he).symm
    · cases hd.symm.trans hr
      simpa using hERR
  · have hfirst : t.ERR = firstError (runCodes k s) := by rw [run_ERR h hclear, hERR, stickyErr_ok_old]
    exact ⟨hfirst, by rw [hfirst, firstError_eq_ok_iff]⟩

-- the table of errors (R263)

/-- The code with which a command's result is reported. -/
def reported : Result → ErrCode
  | .error e => e
  | .ok _ => .ok

theorem commit_reports (s : State) (r : Result) :
    ∃ t dout, s.commit r = .next t ∧ t.resp = some { code := reported r, dout := dout } := by
  cases r with
  | error e => exact ⟨_, 0, rfl, rfl⟩
  | ok p => exact ⟨_, p.2, rfl, rfl⟩

/-- A check or a read that raises `e` exactly when `p` holds. -/
def FailsIff {α : Type} (x : Except ErrCode α) (e : ErrCode) (p : Prop) : Prop :=
  (p → x = .error e) ∧ (¬ p → ∃ a, x = .ok a)

/-- What fails first is reported; the code of what follows stands only when it does not (R258). -/
theorem reported_bind {α : Type} {x : Except ErrCode α} {e c : ErrCode} {p : Prop} [Decidable p] {f : α → Result}
    (hx : FailsIff x e p) (hf : ∀ a, reported (f a) = c) : reported (x >>= f) = if p then e else c := by
  obtain ⟨hfails, hsucceeds⟩ := hx
  split
  next hp =>
    rw [hfails hp]
    rfl
  next hp =>
    obtain ⟨a, ha⟩ := hsucceeds hp
    rw [ha]
    exact hf a

section
variable (s : State)

-- each check and each read

theorem rkIndex_failsIff (r : Idx) : FailsIff (rkIndex s r) .range (s.cfg.nrounds ≤ r.toNat) :=
  ⟨rkIndex_of_ge, fun h => ⟨(), rkIndex_of_lt (Nat.lt_of_not_le h)⟩⟩

theorem tkIndex_failsIff (j : Idx) : FailsIff (tkIndex j) .range (4 ≤ j.toNat) :=
  ⟨tkIndex_of_ge, fun h => ⟨(), tkIndex_of_lt (Nat.lt_of_not_le h)⟩⟩

theorem roundCount_failsIff (n : Idx) : FailsIff (roundCount s n) .range (s.cfg.nrounds < n.toNat) :=
  ⟨roundCount_of_gt, fun h => ⟨(), roundCount_of_le (Nat.le_of_not_lt h)⟩⟩

theorem dinKey_failsIff (width : Nat) : FailsIff (dinKey s width) .size (s.din >>> width ≠ 0) :=
  ⟨dinKey_of_wide, fun h => ⟨_, dinKey_of_fits (not_not.mp h)⟩⟩

theorem readS_failsIff : FailsIff s.readS .size ((!s.SV) = true) := by
  unfold FailsIff State.readS State.SV
  cases s.S <;> simp

theorem readRk_failsIff (r : Nat) : FailsIff (s.readRk r) .size ((!s.RKV r) = true) := by
  unfold FailsIff State.readRk State.RKV
  cases s.rkVal r <;> simp

theorem readTk_failsIff (j : Nat) : FailsIff (s.readTk j) .size ((!s.TKV j) = true) := by
  unfold FailsIff State.readTk State.TKV
  cases s.tkVal j <;> simp

theorem readRks_failsIff (n : Nat) :
    FailsIff (s.readRks n) .size ((List.range n).any (fun r => !s.RKV r) = true) := by
  refine ⟨fun h => ?_, fun h => exists_readRks (by simpa using h)⟩
  have hnone : allValid ((List.range n).map s.rkVal) = none :=
    allValid_eq_none.mpr (by simpa [State.RKV] using h)
  rw [State.readRks, hnone]

theorem readTuple_failsIff : FailsIff s.readTuple .size ((List.range 4).any (fun j => !s.TKV j) = true) := by
  constructor
  · intro h
    unfold State.readTuple
    split
    next hTK => simp [List.range_succ, State.TKV, State.tkVal, tupleEntry, hTK] at h
    next => rfl
  · intro h
    obtain ⟨t, ht⟩ := exists_holdsTuple (s := s) (by simpa using h)
    exact ⟨t, State.readTuple_eq_ok.mpr ht⟩

-- the templates

/-- A command that needs `S` and nothing else. -/
theorem reported_readS_bind {f : Block → Result} (hf : ∀ x, reported (f x) = .ok) :
    reported (s.readS >>= f) = if s.SV then .ok else .size := by
  rw [reported_bind (readS_failsIff s) hf]
  cases s.SV <;> rfl

theorem reported_transform (f : Block → Block) : reported (s.transform f) = if s.SV then .ok else .size :=
  reported_readS_bind s fun _ => rfl

theorem reported_transformRk (r : Idx) (f : Block → Block → Block) :
    reported (s.transformRk r f) =
      if s.cfg.nrounds ≤ r.toNat then .range else if !s.SV || !s.RKV r.toNat then .size else .ok := by
  simp only [Bool.or_eq_true, ite_or]
  exact reported_bind (rkIndex_failsIff s r) fun _ => reported_bind (readS_failsIff s) fun _ =>
    reported_bind (readRk_failsIff s _) fun _ => rfl

theorem reported_transformTk (j : Idx) (f : Block → Block → Block) :
    reported (s.transformTk j f) =
      if 4 ≤ j.toNat then .range else if !s.SV || !s.TKV j.toNat then .size else .ok := by
  simp only [Bool.or_eq_true, ite_or]
  exact reported_bind (tkIndex_failsIff j) fun _ => reported_bind (readS_failsIff s) fun _ =>
    reported_bind (readTk_failsIff s _) fun _ => rfl

theorem reported_transformRks (n : Nat) (f : Block → List Block → Block) :
    reported (s.transformRks n f) = if !s.SV || (List.range n).any (fun r => !s.RKV r) then .size else .ok := by
  simp only [Bool.or_eq_true, ite_or]
  exact reported_bind (readS_failsIff s) fun _ => reported_bind (readRks_failsIff s n) fun _ => rfl

theorem reported_transformTuple (f : Block → KeyTuple Block → Block) :
    reported (s.transformTuple f) = if !s.SV || (List.range 4).any (fun j => !s.TKV j) then .size else .ok := by
  simp only [Bool.or_eq_true, ite_or]
  exact reported_bind (readS_failsIff s) fun _ => reported_bind (readTuple_failsIff s) fun _ => rfl

/-- Every command completes one result, reported with the code of R263's table. -/
theorem exec_reports (i : Instr) : ∃ r, exec i s = s.commit r ∧ reported r = codeOn s i := by
  cases i with
  | nop | clrerr | clr | lds => exact ⟨.ok (_, 0), rfl, rfl⟩
  | rds => exact ⟨_, rfl, reported_readS_bind s fun _ => rfl⟩
  | ldrk r => exact ⟨_, rfl, reported_bind (rkIndex_failsIff s r) fun _ => rfl⟩
  | rdrk r =>
    exact ⟨_, rfl, reported_bind (rkIndex_failsIff s r) fun _ => reported_bind (readRk_failsIff s _) fun _ => rfl⟩
  | ldtk j => exact ⟨_, rfl, reported_bind (tkIndex_failsIff j) fun _ => rfl⟩
  | rdtk j =>
    exact ⟨_, rfl, reported_bind (tkIndex_failsIff j) fun _ => reported_bind (readTk_failsIff s _) fun _ => rfl⟩
  | sub | subi | prm | prmi | mmul | mmuli | addd | mid => exact ⟨_, rfl, reported_transform s _⟩
  | addrk r | rndf r | rndi r => exact ⟨_, rfl, reported_transformRk s r _⟩
  | addtk j | rndft j | rndit j => exact ⟨_, rfl, reported_transformTk s j _⟩
  | ksch | rksch => exact ⟨_, rfl, reported_bind (dinKey_failsIff s _) fun _ => rfl⟩
  | enc | dec => exact ⟨_, rfl, reported_transformRks s _ _⟩
  | encr n | decr n =>
    exact ⟨_, rfl, reported_bind (roundCount_failsIff s n) fun _ => reported_transformRks s _ _⟩
  | rkswp => exact ⟨_, rfl, reported_bind (readTuple_failsIff s) fun _ => rfl⟩
  | renc | rdec => exact ⟨_, rfl, reported_transformTuple s _⟩

end

-- a non-zero operand byte (R64, R65)

/-- The opcode tells the format: a format-`N` row decodes its opcode to its own command alone. -/
theorem takesIdx_of_opcodeOf_eq {i j : Instr} (h : opcodeOf i = opcodeOf j) (hi : takesIdx i = true) :
    takesIdx j = true := by
  by_contra hj
  have hj : takesIdx j = false := by simpa using hj
  obtain ⟨ho, -⟩ := decode_eq_ok_iff.mp (decodeOfEncode i)
  have hdecode := (decode_of_formatN hj (ho.trans h)).symm.trans (decodeOfEncode i)
  obtain ⟨-, rfl⟩ := formatN_eq_ok.mp hdecode
  simp [hi] at hj

/-- Any operand byte under a format-`I` opcode is a command of that opcode. -/
theorem decode_formatI {i : Instr} (hi : takesIdx i = true) (ii : Idx) :
    ∃ i', decode (opcodeOf i ++ ii) = .ok i' ∧ opcodeOf i' = opcodeOf i := by
  have ho : opcodeField (opcodeOf i ++ ii) = opcodeOf i := Laws.opcodeField_append _ ii
  rcases decode_cases (opcodeOf i ++ ii) with ⟨j, hj, hoj, -⟩ | ⟨j, -, hoj, -, hd⟩ | ⟨hu, -⟩
  · simp [takesIdx_of_opcodeOf_eq (ho.symm.trans hoj) hi] at hj
  · exact ⟨j, hd, hoj.symm.trans ho⟩
  · rw [ho] at hu
    exact absurd hu (opcodeOf_defined i)

/-- Settles O15: the table by `exec_reports`; a reserved word is illegal, a format-`I` word is not. -/
theorem everyCommandReportsItsTableCode : Obligations.EveryCommandReportsItsTableCode := by
  refine ⟨fun i s => ?_, fun i ii hii => ⟨fun hi s q rest hs hq ho hidx => ?_, fun hi => decode_formatI hi ii⟩⟩
  · obtain ⟨r, hexec, hcode⟩ := exec_reports s i
    rw [hexec, ← hcode]
    exact commit_reports s r
  · obtain ⟨e, he⟩ := decode_eq_error_iff.mpr (.inr ⟨i, hi, ho.symm, hidx ▸ hii⟩)
    exact ⟨_, step_illegal hs hq he, rfl⟩

-- priority (R258)

theorem exec_rndf_of_ge {s : State} {r : Idx} (h : s.cfg.nrounds ≤ r.toNat) :
    exec (.rndf r) s = .next (s.raise .range) := by
  rw [exec, execRndf, State.transformRk, rkIndex_of_ge h]
  rfl

/-- Settles O18: the index is checked before `S` is read, and the operand byte before the command is known. -/
theorem priorityExamplesAfterReset : Obligations.PriorityExamplesAfterReset := by
  constructor
  · have hs : ((State.resetOf engineTA).withFetchWord 16 0x3107).script = [.command { cmd := 0x3107, din := 0 }] := rfl
    have hdecode : decode 0x3107 = .ok (.rndf 7) := decodeOfEncode (.rndf 7)
    exact (step_decoded hs (by decide) hdecode).trans (exec_rndf_of_ge (by decide))
  · have hs : ((State.resetOf engineTA).withFetchWord 16 0x2001).script = [.command { cmd := 0x2001, din := 0 }] := rfl
    exact step_reserved (i := .sub) rfl hs (by decide) (by decide) (by decide)

end Sys2Proof.Machine
end

