-- ==== Sys2Proof/Proofs/ResetAndHazards.lean ====
section
/-! Steps that run no command (spec/70_reset_and_hazards.md R280, spec/60_exceptions.md R265): the reset input, an idle
engine, and a request whose `din` is too wide for the data-in bus. -/

namespace Sys2Proof.Machine

theorem Request.onBus_eq_false_iff {c : Cfg} {q : Request} : q.onBus c = false ↔ 2 ^ c.DW ≤ q.din := by
  rw [Request.onBus, decide_eq_false_iff_not, Nat.not_lt]

/-- Settles O7, event by event: the records that the statement writes out are `takeReset` and `idle`. -/
theorem stepWithoutACommand : Obligations.StepWithoutACommand := by
  refine ⟨fun s rest hs => ?reset, fun s hs => ?idle, fun s q rest hs hwide => ?offBus⟩
  case reset => exact step_reset hs
  case idle => exact step_idle hs
  case offBus => exact step_offBus hs (Request.onBus_eq_false_iff.mpr hwide)

end Sys2Proof.Machine
end
